-- ==== Sys2Proof/Word.lean ====
section
/-!
DEFINITION. The bit-vector types of the machine: words, bytes and register numbers (rules R6, R11).
-/

namespace Sys2Proof

/-- A 16-bit word: a register, a memory cell, an instruction or an address (rules R6, R11). -/
abbrev Word := BitVec 16

/-- An 8-bit value: a key code, a character or a trap vector (rules R6, R10). -/
abbrev Byte := BitVec 8

/-- The number of a general register, a 3-bit instruction field (rule R20). -/
abbrev RegId := BitVec 3

end Sys2Proof
end

