-- ==== Sys2Proof/Syntax.lean ====
section
/-!
DEFINITION. The instructions: one constructor per row of spec/opcode_table.json (rules R83, R90, R91, R98, R99).

The 19 instruction rows come first, then the seven service rows that refine `TRAP`, then the two alias rows.
The fields of a constructor are the fields of its row; a bit that no rule reads (rule R93) is no field.
`RTI` and `RES` carry the 12 bits the decoder ignores, because the fault record holds the whole fetched
word (rules R220, R222, R231).
-/

namespace Sys2Proof

inductive Instr where
  /-- `BR[n][z][p]`, format BR (rule R142). -/
  | br (n z p : Bool) (off9 : BitVec 9)
  /-- `ADD DR, SR1, SR2`, format OPR (rule R122). -/
  | addReg (dr sr1 sr2 : RegId)
  /-- `ADD DR, SR1, #imm5`, format OPI (rule R123). -/
  | addImm (dr sr1 : RegId) (imm5 : BitVec 5)
  /-- `LD DR, LABEL`, format PCR (rule R162). -/
  | ld (dr : RegId) (off9 : BitVec 9)
  /-- `ST SR, LABEL`, format PCR (rule R170). -/
  | st (sr : RegId) (off9 : BitVec 9)
  /-- `JSR LABEL`, format JSR (rule R146). -/
  | jsr (off11 : BitVec 11)
  /-- `JSRR BaseR`, format JSRR (rule R148). -/
  | jsrr (baseR : RegId)
  /-- `AND DR, SR1, SR2`, format OPR (rule R125). -/
  | andReg (dr sr1 sr2 : RegId)
  /-- `AND DR, SR1, #imm5`, format OPI (rule R126). -/
  | andImm (dr sr1 : RegId) (imm5 : BitVec 5)
  /-- `LDR DR, BaseR, #off6`, format BOF (rule R166). -/
  | ldr (dr baseR : RegId) (off6 : BitVec 6)
  /-- `STR SR, BaseR, #off6`, format BOF (rule R174). -/
  | str (sr baseR : RegId) (off6 : BitVec 6)
  /-- `RTI`, format RSV (rule R220). `low12` is `ir[11:0]`, kept for the fault record only. -/
  | rti (low12 : BitVec 12)
  /-- `NOT DR, SR`, format NOT (rule R128). -/
  | not (dr sr : RegId)
  /-- `LDI DR, LABEL`, format PCR (rule R164). -/
  | ldi (dr : RegId) (off9 : BitVec 9)
  /-- `STI SR, LABEL`, format PCR (rule R172). -/
  | sti (sr : RegId) (off9 : BitVec 9)
  /-- `JMP BaseR`, format JMP (rule R144). -/
  | jmp (baseR : RegId)
  /-- `RES`, format RSV (rule R222). `low12` is `ir[11:0]`, kept for the fault record only. -/
  | res (low12 : BitVec 12)
  /-- `LEA DR, LABEL`, format PCR (rule R168). -/
  | lea (dr : RegId) (off9 : BitVec 9)
  /-- `TRAP xvv`, format TRAP (rule R190): the row that the seven service rows below refine. -/
  | trap (vect8 : Byte)
  /-- `GETC`, `TRAP x20` (rule R194). -/
  | trapGetc
  /-- `OUT`, `TRAP x21` (rule R196). -/
  | trapOut
  /-- `PUTS`, `TRAP x22` (rule R198). -/
  | trapPuts
  /-- `IN`, `TRAP x23` (rule R200). -/
  | trapIn
  /-- `PUTSP`, `TRAP x24` (rule R202). -/
  | trapPutsp
  /-- `HALT`, `TRAP x25` (rule R204). -/
  | trapHalt
  /-- `TRAP` with a vector that selects no service (rule R206). -/
  | trapUnknown (vect8 : Byte)
  /-- `RET`, an alias of `JMP R7` (rules R98, R144). -/
  | ret
  /-- `NOP`, an alias of `BR` with `n = z = p = 0` (rules R98, R142). -/
  | nop (off9 : BitVec 9)
deriving DecidableEq, Repr

/-- The instruction of rule R91 that a constructor's words are: the service rows are `TRAP` words and the
alias rows are `JMP` and `BR` words (rule R98). -/
def Instr.core : Instr → Instr
  | .trapGetc => .trap 0x20
  | .trapOut => .trap 0x21
  | .trapPuts => .trap 0x22
  | .trapIn => .trap 0x23
  | .trapPutsp => .trap 0x24
  | .trapHalt => .trap 0x25
  | .trapUnknown v => .trap v
  | .ret => .jmp 7
  | .nop off9 => .br false false false off9
  | i => i

end Sys2Proof
end

