-- ==== Sys2Proof/WellFormed.lean ====
section
/-!
DEFINITION. Which terms of `Instr` the decoder gives (rules R91, R98, R99).

Every field has its exact width in its type, so only the rows that stand for the same words need a check:
a `TRAP` term is given as the service its vector selects, an alias as the instruction it is an alias of.
-/

namespace Sys2Proof

/-- The six service codes of rule R99. -/
def serviceVector (v : Byte) : Bool :=
  v == 0x20 || v == 0x21 || v == 0x22 || v == 0x23 || v == 0x24 || v == 0x25

/-- The term is one the decoder gives for some word. -/
def Instr.wellFormed : Instr → Bool
  | .trap _ => false
  | .ret => false
  | .nop _ => false
  | .trapUnknown v => !serviceVector v
  | _ => true

end Sys2Proof
end

