-- ==== Sys2Proof/Decode.lean ====
section
/-!
DEFINITION. The decoder, a total function of the 16-bit word (rules R80 to R83, R91 to R95), and the encoder.

Every one of the 65536 words decodes (rule R81), so nothing is rejected here but a request for an instruction
of more than one word. `decodeFields` is rule R91 as it stands; `Instr.refine` gives a `TRAP` word the
constructor of the service row its vector selects, which the opcode table says takes precedence.
-/

namespace Sys2Proof

/-- `ir[lo+len-1 : lo]`, the field of `len` bits whose lowest bit is `lo` (rules R11, R82). -/
def field (ir : Word) (lo len : Nat) : BitVec len := ir.extractLsb' lo len

/-- `DR`, and `SR` of a store: `ir[11:9]` (rule R82). -/
def fieldDR (ir : Word) : RegId := field ir 9 3

/-- `SR1`, `BaseR`, and `SR` of `NOT`: `ir[8:6]` (rule R82). -/
def fieldBase (ir : Word) : RegId := field ir 6 3

/-- `SR2`: `ir[2:0]` (rule R82). -/
def fieldSR2 (ir : Word) : RegId := field ir 0 3

/-- Rule R91, on the four opcode bits `ir[15]`, `ir[14]`, `ir[13]`, `ir[12]`. -/
def decodeFields (ir : Word) : Instr :=
  match ir.getLsbD 15, ir.getLsbD 14, ir.getLsbD 13, ir.getLsbD 12 with
  | false, false, false, false => .br (ir.getLsbD 11) (ir.getLsbD 10) (ir.getLsbD 9) (field ir 0 9)
  | false, false, false, true =>
    if ir.getLsbD 5 then .addImm (fieldDR ir) (fieldBase ir) (field ir 0 5)
    else .addReg (fieldDR ir) (fieldBase ir) (fieldSR2 ir)
  | false, false, true, false => .ld (fieldDR ir) (field ir 0 9)
  | false, false, true, true => .st (fieldDR ir) (field ir 0 9)
  | false, true, false, false =>
    if ir.getLsbD 11 then .jsr (field ir 0 11) else .jsrr (fieldBase ir)
  | false, true, false, true =>
    if ir.getLsbD 5 then .andImm (fieldDR ir) (fieldBase ir) (field ir 0 5)
    else .andReg (fieldDR ir) (fieldBase ir) (fieldSR2 ir)
  | false, true, true, false => .ldr (fieldDR ir) (fieldBase ir) (field ir 0 6)
  | false, true, true, true => .str (fieldDR ir) (fieldBase ir) (field ir 0 6)
  | true, false, false, false => .rti (field ir 0 12)
  | true, false, false, true => .not (fieldDR ir) (fieldBase ir)
  | true, false, true, false => .ldi (fieldDR ir) (field ir 0 9)
  | true, false, true, true => .sti (fieldDR ir) (field ir 0 9)
  | true, true, false, false => .jmp (fieldBase ir)
  | true, true, false, true => .res (field ir 0 12)
  | true, true, true, false => .lea (fieldDR ir) (field ir 0 9)
  | true, true, true, true => .trap (field ir 0 8)

/-- The service row that a trap vector selects (rule R99). -/
def trapRow (v : Byte) : Instr :=
  if v = 0x20 then .trapGetc
  else if v = 0x21 then .trapOut
  else if v = 0x22 then .trapPuts
  else if v = 0x23 then .trapIn
  else if v = 0x24 then .trapPutsp
  else if v = 0x25 then .trapHalt
  else .trapUnknown v

/-- A `TRAP` term as the service row that refines it; every other term as it is. -/
def refine : Instr → Instr
  | .trap v => trapRow v
  | i => i

/-- The decoder. It reads no state but the word (rule R91). -/
def decode (ir : Word) : Instr := refine (decodeFields ir)

/-- A `BR` word's three condition bits and offset (rules R83, R95). -/
def encodeBr (n z p : Bool) (off9 : BitVec 9) : Word :=
  (0 : BitVec 4) ++ (BitVec.ofBool n ++ (BitVec.ofBool z ++ (BitVec.ofBool p ++ off9)))

/-- Formats OPR, OPI, NOT and BOF: opcode, two register fields, six more bits (rule R83). -/
def encodeRegs (op : BitVec 4) (dr base : RegId) (low6 : BitVec 6) : Word :=
  op ++ (dr ++ (base ++ low6))

/-- Format PCR: opcode, register field, 9-bit offset (rule R83). -/
def encodePcr (op : BitVec 4) (dr : RegId) (off9 : BitVec 9) : Word := op ++ (dr ++ off9)

/-- Format TRAP with its canonical ignored bits (rule R83). -/
def encodeTrap (v : Byte) : Word := (0xF : BitVec 4) ++ ((0 : BitVec 4) ++ v)

/-- The word of an instruction, with the canonical value of every ignored bit (rules R83, R97, R98). -/
def encode : Instr → Word
  | .br n z p off9 => encodeBr n z p off9
  | .addReg dr sr1 sr2 => encodeRegs 0x1 dr sr1 ((0 : BitVec 3) ++ sr2)
  | .addImm dr sr1 imm5 => encodeRegs 0x1 dr sr1 ((1 : BitVec 1) ++ imm5)
  | .ld dr off9 => encodePcr 0x2 dr off9
  | .st sr off9 => encodePcr 0x3 sr off9
  | .jsr off11 => (0x4 : BitVec 4) ++ ((1 : BitVec 1) ++ off11)
  | .jsrr baseR => encodeRegs 0x4 0 baseR 0
  | .andReg dr sr1 sr2 => encodeRegs 0x5 dr sr1 ((0 : BitVec 3) ++ sr2)
  | .andImm dr sr1 imm5 => encodeRegs 0x5 dr sr1 ((1 : BitVec 1) ++ imm5)
  | .ldr dr baseR off6 => encodeRegs 0x6 dr baseR off6
  | .str sr baseR off6 => encodeRegs 0x7 sr baseR off6
  | .rti low12 => (0x8 : BitVec 4) ++ low12
  | .not dr sr => encodeRegs 0x9 dr sr 0x3F
  | .ldi dr off9 => encodePcr 0xA dr off9
  | .sti sr off9 => encodePcr 0xB sr off9
  | .jmp baseR => encodeRegs 0xC 0 baseR 0
  | .res low12 => (0xD : BitVec 4) ++ low12
  | .lea dr off9 => encodePcr 0xE dr off9
  | .trap v => encodeTrap v
  | .trapGetc => encodeTrap 0x20
  | .trapOut => encodeTrap 0x21
  | .trapPuts => encodeTrap 0x22
  | .trapIn => encodeTrap 0x23
  | .trapPutsp => encodeTrap 0x24
  | .trapHalt => encodeTrap 0x25
  | .trapUnknown v => encodeTrap v
  | .ret => encodeRegs 0xC 0 7 0
  | .nop off9 => encodeBr false false false off9

/-- The word whose bits are the low `nbits` bits of `w`, the bits above them 0. -/
def tableWord (nbits w : Nat) : Word := BitVec.ofNat 16 (w % 2 ^ nbits)

/-- The instruction the decoder reads from a word of the opcode table. An instruction is one 16-bit word
(rule R80): a longer one does not exist and is not decoded. -/
def decodeTableWord (nbits w : Nat) : Option Instr :=
  if nbits ≤ 16 then some (decode (tableWord nbits w)) else none

end Sys2Proof
end

