-- ==== Sys2Proof/Config.lean ====
section
/-!
DEFINITION. What is fixed for the machine (rule R6) and what the spec leaves to the keyboard producer
(rules R7, R38, R69; decision D27). The free values have no body: no proof can see a value of them.
-/

namespace Sys2Proof

/-- The open parameter `KBD_OVERRUN` (rule R7, decision D27): what the keyboard producer does with a key
that arrives while the one-key mailbox is full. -/
inductive KbdOverrun where
  | dropNew
  | overwriteOld
deriving DecidableEq, Repr, Inhabited

namespace Config

/-- The entry point, `pc` at reset and the lowest address the loader writes (rules R6, R27, R62). -/
def entry : Word := 0x3000

/-- The keyboard status cell `KBSR` (rules R6, R35). -/
def kbsr : Word := 0xFE00

/-- The keyboard data cell `KBDR` (rules R6, R36). -/
def kbdr : Word := 0xFE02

/-- The number of cells of the address space (rules R6, R50). -/
def cells : Nat := 65536

/-- FREE VALUE (log entry 1). What the keyboard producer does in its n-th move: nothing, or one key code
(rules R7, R69). Nothing constrains it. -/
opaque keyArrival : Nat → Option Byte

/-- FREE VALUE (log entry 3). What the producer does during a string service that goes on after a whole turn
round memory: the keys that arrive, one before each of the next turns, until none arrives; or `none`: a key other
than `0x00` arrives before every turn, for ever (rules R69, R210). Nothing constrains it. -/
opaque keysInService : Nat → Option (List Byte)

/-- FREE VALUE (log entry 3). A key that arrives during a string service that never ends: its code less one, so
that every code but `0x00` is a value of it (rule R210). Nothing constrains it. -/
opaque endlessKey : Nat → Fin 255

/-- FREE VALUE (log entry 2). The overrun policy `KBD_OVERRUN` of the producer (rule R7, decision D27). -/
opaque kbdOverrun : KbdOverrun

end Config

end Sys2Proof
end

