-- ==== Sys2Proof/Machine/State.lean ====
section
/-!
DEFINITION. The machine's state as plain data (rule R41), the reasons a step can stop, and the state at reset.

All of rule R41 is here: `R[0..7]`, `pc`, `CC`, `STATE`, `mem`, `KBD_SLOT`, `OUT` and `REPORTS`. Three fields
are the model's own: `keys` and `draws` (the producer's moves, log entry 1) and `walk` (a string service that
never ends, log entry 3).
-/

namespace Sys2Proof.Machine

/-- The condition-flag set `CC`: exactly one of three flags (rule R28, decision D13). -/
inductive CC where
  | pos
  | zro
  | neg
deriving DecidableEq, Repr

/-- The `reason` of `FAULTED` (rule R32): the opcode, the fetched word and the address it came from. -/
inductive FaultReason where
  | unimplementedOpcode (op : BitVec 4) (ir a : Word)
deriving DecidableEq, Repr

/-- `STATE`, the execution state (rule R32). -/
inductive ExecState where
  | running
  | halted
  | faulted (reason : FaultReason)
deriving DecidableEq, Repr

/-- One record of the diagnostic log `REPORTS` (rules R40, R206). -/
inductive Report where
  | unrecognizedTrapVector (v : Byte) (a : Word)
deriving DecidableEq, Repr

/-- The two services that walk a string in memory (rules R198, R202). -/
inductive StringKind where
  | puts
  | putsp
deriving DecidableEq, Repr

/-- A string service and the address that each turn of it round memory starts at (rules R198, R202). -/
structure Walk where
  kind : StringKind
  addr : Word
deriving DecidableEq, Repr

/-- The memory: pairs of an address and the 16-bit word of that cell, addresses strictly rising, no cell
that holds `0x0000`, which is what an unlisted address reads as (rules R50, R53; log entry 4). -/
abbrev Memory := List (Nat × Word)

structure State where
  /-- `R[0]` to `R[7]` (rule R20). -/
  regs : Vector Word 8
  /-- The program counter (rule R24). -/
  pc : Word
  /-- The condition flags (rule R28). -/
  cc : CC
  /-- `STATE`, the execution state (rule R32). -/
  status : ExecState
  /-- The 65536 cells of memory (rule R50). -/
  mem : Memory
  /-- `KBD_SLOT`, the one-key mailbox (rule R38). -/
  kbdSlot : Option Byte
  /-- `OUT`, the characters handed to the output sink, oldest first (rule R39). -/
  out : List Byte
  /-- `REPORTS`, the diagnostic records, oldest first (rule R40). -/
  reports : List Report
  /-- The model's own: the keyboard producer's next moves, oldest first, where they are given
  (`KEYS` of rule R7); beyond them each move is the free value `Config.keyArrival`. -/
  keys : List (Option Byte)
  /-- The model's own: how many draws the producer has made; the argument of the free values in `Config`. -/
  draws : Nat
  /-- The model's own: the string service that never ends, after each whole turn of it round memory (rule R210). -/
  walk : Option Walk
deriving DecidableEq, Repr

/-- Why a step stops with a fault: never. The spec's one fatal error, `UnimplementedOpcode`, is a next state
with `STATE = FAULTED(..)` (rules R220, R222, R231), and nothing else faults (rule R233), so this type has
no constructor. -/
inductive Fault where
deriving DecidableEq, Repr

/-- Why an instruction is refused. -/
inductive Refusal where
  /-- Raised by no arm of `exec`: every instruction has its meaning. An arm would raise it for an instruction
  without one; that would be safe. -/
  | notModelled (mnemonic : String)
deriving DecidableEq, Repr

/-- What a meaning answers. -/
abbrev Result := Host.Outcome State Fault Refusal

/-- The machine right after reset (rules R41, R260). `keys`, `draws` and `walk` are the model's own. -/
def State.reset : State where
  regs := Vector.replicate 8 0
  pc := Config.entry
  cc := .zro
  status := .running
  mem := []
  kbdSlot := none
  out := []
  reports := []
  keys := []
  draws := 0
  walk := none

end Sys2Proof.Machine
end

