-- ==== Sys2Proof/Machine/Ops.lean ====
section
/-!
DEFINITION. The named operations over registers, memory, the keyboard mailbox, the output stream, the
diagnostic log and the execution state; the fetch; the loader; the keyboard producer.
-/

namespace Sys2Proof.Machine

/-! ### General registers (rule R20) -/

/-- Read `R[r]`. -/
def State.reg (s : State) (r : RegId) : Word := s.regs[r.toNat]'r.isLt

/-- Write `R[r]`. No register is hardwired (rule R20). -/
def State.setReg (s : State) (r : RegId) (v : Word) : State :=
  { s with regs := s.regs.set r.toNat v r.isLt }

/-! ### The other registers -/

/-- Write `pc` (rule R27). -/
def State.setPc (s : State) (v : Word) : State := { s with pc := v }

/-- Write `CC` (rule R30). -/
def State.setCc (s : State) (c : CC) : State := { s with cc := c }

/-- Write `STATE` (rule R33). -/
def State.setStatus (s : State) (x : ExecState) : State := { s with status := x }

/-- Write the mailbox (rule R38). -/
def State.setSlot (s : State) (k : Option Byte) : State := { s with kbdSlot := k }

/-- Note that a string service is in progress that never ends, or that none is (rule R210). -/
def State.setWalk (s : State) (w : Option Walk) : State := { s with walk := w }

/-! ### Memory cells (rules R50, R53) -/

/-- The word of the cell with this address. -/
def Memory.read : Memory → Nat → Word
  | [], _ => 0
  | (b, w) :: m, a => if b = a then w else Memory.read m a

/-- Store a word in the cell with this address, in canonical form. -/
def Memory.write : Memory → Nat → Word → Memory
  | [], a, v => if v = 0 then [] else [(a, v)]
  | (b, w) :: m, a, v =>
    if a < b then (if v = 0 then (b, w) :: m else (a, v) :: (b, w) :: m)
    else if a = b then (if v = 0 then m else (a, v) :: m)
    else (b, w) :: Memory.write m a v

/-- The canonical form: addresses strictly rising and inside the address space, no cell listed that holds
what an unlisted cell reads as. -/
abbrev Memory.wf (m : Memory) : Prop :=
  m.Pairwise (fun c d => c.1 < d.1) ∧ ∀ c ∈ m, c.1 < Config.cells ∧ c.2 ≠ 0

/-- `mem[a]`, the stored content of a cell, with no side effect (rule R12). -/
def State.cell (s : State) (a : Word) : Word := Memory.read s.mem a.toNat

/-- `mem[a] <- v`. -/
def State.setCell (s : State) (a v : Word) : State := { s with mem := Memory.write s.mem a.toNat v }

/-! ### The keyboard mailbox as the core uses it (rules R10, R38) -/

/-- Zero extension of an 8-bit value (rule R12). -/
def zext8 (k : Byte) : Word := k.setWidth 16

/-- `KbdAvailable()`. -/
def State.kbdAvailable (s : State) : Bool := s.kbdSlot.isSome

/-- `KbdConsume()`: the key and the state with an empty mailbox; enabled only when a key is there. -/
def State.kbdConsume (s : State) : Option (Byte × State) := s.kbdSlot.map fun k => (k, s.setSlot none)

/-- `KbdPoll()`, the side effect of a read of `0xFE00` (rule R57). -/
def State.kbdPoll (s : State) : State :=
  match s.kbdConsume with
  | some (k, t) => (t.setCell Config.kbdr (zext8 k)).setCell Config.kbsr 0x8000
  | none => s.setCell Config.kbsr 0

/-! ### The two access primitives and the fetch -/

/-- The state a `MemRead` leaves: changed only by a read of `0xFE00` (rule R54). -/
def State.afterRead (s : State) (a : Word) : State := if a = Config.kbsr then s.kbdPoll else s

/-- `MemRead(a, 16)`: the word read and the state it leaves (rule R54). -/
def State.memRead (s : State) (a : Word) : Word × State := ((s.afterRead a).cell a, s.afterRead a)

/-- `MemWrite(a, 16, v)`: a direct store at every address (rule R55). -/
def State.memWrite (s : State) (a v : Word) : State := s.setCell a v

/-- The fetch: `ir <- MemRead(pc, 16); pc <- pc + 1` (rules R25, R26, R266). -/
def State.fetch (s : State) : Word × State :=
  ((s.memRead s.pc).1, (s.memRead s.pc).2.setPc (s.pc + 1))

/-! ### Output, reports, and taking the one fatal error -/

/-- `OutChar(c)` (rules R9, R10, R39): the sink always accepts. -/
def State.outChar (s : State) (c : Byte) : State := { s with out := s.out ++ [c] }

/-- `Report(r)` (rules R12, R40, R206). -/
def State.report (s : State) (r : Report) : State := { s with reports := s.reports ++ [r] }

/-- The address of the instruction being executed: `pc - 1`, since the fetch has advanced `pc` (rule R25). -/
def State.instrAddr (s : State) : Word := s.pc - 1

/-- `raise Fault(UnimplementedOpcode(op, ir, a))` (rules R12, R231): the one exception of this hardware.
Nothing is saved but the record, nothing else is written, and there is no return from it (rules R236, R238). -/
def State.raiseUnimplemented (s : State) (op : BitVec 4) (ir : Word) : State :=
  s.setStatus (.faulted (.unimplementedOpcode op ir s.instrAddr))

/-! ### The external agents -/

/-- `IMAGE` (rule R7): what the loader writes, in the order it writes it. -/
abbrev Image := List (Word × Word)

/-- The loader (rules R9, R262): plain stores, then `pc` at the entry point. Its domain is not narrowed to
`0x3000` and above, which rule R262 allows. -/
def State.load (s : State) (image : Image) : State :=
  (image.foldl (fun t c => t.memWrite c.1 c.2) s).setPc Config.entry

/-- The mailbox after the producer's move, under an overrun policy (rule R38, decision D27). -/
def slotAfter (policy : KbdOverrun) : Option Byte → Option Byte → Option Byte
  | slot, none => slot
  | none, some k => some k
  | some old, some k =>
    match policy with
    | .dropNew => some old
    | .overwriteOld => some k

/-- An arrival, or none, at the mailbox: nothing else is touched (rules R38, R61). -/
def State.arrive (s : State) (k : Option Byte) : State :=
  { s with kbdSlot := slotAfter Config.kbdOverrun s.kbdSlot k }

/-- Count one draw of the producer's free values. -/
def State.nextDraw (s : State) : State := { s with draws := s.draws + 1 }

/-- What the producer does next: the first of the given moves, or else a free value (rules R7, R69). -/
def State.arrival (s : State) : Option Byte :=
  match s.keys with
  | k :: _ => k
  | [] => Config.keyArrival s.draws

/-- One move of the keyboard producer: it touches the mailbox only (rules R61, R69). -/
def State.producerMove (s : State) : State := { (s.arrive s.arrival).nextDraw with keys := s.keys.tail }

/-- The code of the key that arrives during a string service that never ends: any but `0x00`. -/
def nonzeroKey (n : Fin 255) : Byte := BitVec.ofNat 8 (n.val + 1)

/-- One move of the keyboard producer during a string service that never ends: such a key arrives (rule R210). -/
def State.endlessMove (s : State) : State := (s.arrive (some (nonzeroKey (Config.endlessKey s.draws)))).nextDraw

/-- The producer's move after a step of the core: the endless one where the core is in a string service that
never ends, else one move (rules R69, R210). -/
def State.keyboardMove (s : State) : State :=
  match s.walk with
  | some _ => s.endlessMove
  | none => s.producerMove

/-- The state at the first step of a program: reset, the loader's phase, and whatever the producer has done
meanwhile (rules R260, R262, R264). -/
def State.start (image : Image) : State := (State.reset.load image).producerMove

end Sys2Proof.Machine
end

