-- ==== Sys2Proof/Machine/Flags.lean ====
section
/-!
DEFINITION. The condition flags: how they are derived, written and tested (rules R28 to R30, R142).
-/

namespace Sys2Proof.Machine

/-- The flag of a 16-bit value (rule R29). -/
def flagOf (v : Word) : CC :=
  if v = 0 then .zro else if v.getLsbD 15 then .neg else .pos

/-- `setcc(v)` (rule R29). -/
def State.setcc (s : State) (v : Word) : State := s.setCc (flagOf v)

/-- `R[DR] <- v; setcc(v)`, the write of every flag-setting instruction (rule R30). -/
def State.writeResult (s : State) (dr : RegId) (v : Word) : State := (s.setReg dr v).setcc v

/-- Does a requested flag match the current one (rule R142). -/
def branchTaken (n z p : Bool) : CC → Bool
  | .neg => n
  | .zro => z
  | .pos => p

end Sys2Proof.Machine
end

