-- ==== Sys2Proof/Machine/Operands.lean ====
section
/-!
DEFINITION. The operand forms: sign extension, the immediate operand, the effective addresses, the bytes of a
word (rules R60, R84 to R88, R160). `pc` is the advanced counter throughout (rule R25).
-/

namespace Sys2Proof.Machine

/-- `sext_N(v)`, sign extension of an N-bit value to 16 bits (rule R84). -/
def sext {n : Nat} (v : BitVec n) : Word := v.signExtend 16

/-- The immediate operand of `ADD` and `AND` (rule R85). -/
def immOperand (imm5 : BitVec 5) : Word := sext imm5

/-- The PC-relative address of `BR`, `LD`, `LDI`, `LEA`, `ST` and `STI` (rules R87, R160). -/
def State.pcRelative (s : State) (off9 : BitVec 9) : Word := s.pc + sext off9

/-- The target of `JSR` (rule R88). -/
def State.jsrTarget (s : State) (off11 : BitVec 11) : Word := s.pc + sext off11

/-- The base + offset address of `LDR` and `STR` (rules R86, R160). -/
def State.baseOffset (s : State) (baseR : RegId) (off6 : BitVec 6) : Word := s.reg baseR + sext off6

/-- The indirect address of `LDI` and `STI`: the pointer, read with `MemRead`, and the state after that read
(rule R160). -/
def State.indirect (s : State) (off9 : BitVec 9) : Word × State := s.memRead (s.pcRelative off9)

/-- `w[7:0]` (rule R60). -/
def lowByte (w : Word) : Byte := w.extractLsb' 0 8

/-- `w[15:8]` (rule R60). -/
def highByte (w : Word) : Byte := w.extractLsb' 8 8

end Sys2Proof.Machine
end

