-- ==== Sys2Proof/Machine/Control.lean ====
section
/-!
DEFINITION. Control transfer: `BR`, `JMP`, `JSR`, `JSRR` and the aliases `RET` and `NOP` (rules R140 to R150).
`s.pc` is already advanced.
-/

namespace Sys2Proof.Machine

/-- A conditional branch relative to the advanced counter (rule R142). -/
def State.branchIf (s : State) (taken : Bool) (off9 : BitVec 9) : State :=
  if taken then s.setPc (s.pcRelative off9) else s

/-- A jump through a register (rule R144). -/
def State.jumpVia (s : State) (baseR : RegId) : State := s.setPc (s.reg baseR)

/-- `R[7] <- pc` (rules R146, R148). -/
def State.link (s : State) : State := s.setReg 7 s.pc

/-- `BR[n][z][p]` (rule R142). -/
def execBr (n z p : Bool) (off9 : BitVec 9) (s : State) : Result :=
  .next (s.branchIf (branchTaken n z p s.cc) off9)

/-- `JMP BaseR` (rule R144). -/
def execJmp (baseR : RegId) (s : State) : Result := .next (s.jumpVia baseR)

/-- `JSR LABEL` (rule R146). -/
def execJsr (off11 : BitVec 11) (s : State) : Result := .next (s.link.setPc (s.jsrTarget off11))

/-- `JSRR BaseR`: the register file is read after the write of `R[7]` (rule R148, decision D8). -/
def execJsrr (baseR : RegId) (s : State) : Result := .next (s.link.jumpVia baseR)

/-- `RET`, that is `JMP R7` (rules R98, R144). -/
def execRet (s : State) : Result := .next (s.jumpVia 7)

/-- `NOP`, that is `BR` with no flag requested: never taken, whatever the offset is (rules R98, R142). -/
def execNop (off9 : BitVec 9) (s : State) : Result :=
  .next (s.branchIf (branchTaken false false false s.cc) off9)

end Sys2Proof.Machine
end

