-- ==== Sys2Proof/Machine/LoadStore.lean ====
section
/-!
DEFINITION. Loads, stores and `LEA` (rules R160 to R174). `s.pc` is already advanced.
-/

namespace Sys2Proof.Machine

/-- `v <- MemRead(ea, 16); R[DR] <- v; setcc(v)` (rule R161). -/
def State.loadFrom (s : State) (dr : RegId) (ea : Word) : State :=
  (s.memRead ea).2.writeResult dr (s.memRead ea).1

/-- `MemWrite(ea, 16, R[SR])` (rule R161). -/
def State.storeTo (s : State) (sr : RegId) (ea : Word) : State := s.memWrite ea (s.reg sr)

/-- `LD DR, LABEL` (rule R162). -/
def execLd (dr : RegId) (off9 : BitVec 9) (s : State) : Result :=
  .next (s.loadFrom dr (s.pcRelative off9))

/-- `LDI DR, LABEL` (rule R164): the pointer read, then the data read. -/
def execLdi (dr : RegId) (off9 : BitVec 9) (s : State) : Result :=
  .next ((s.indirect off9).2.loadFrom dr (s.indirect off9).1)

/-- `LDR DR, BaseR, #off6` (rule R166). -/
def execLdr (dr baseR : RegId) (off6 : BitVec 6) (s : State) : Result :=
  .next (s.loadFrom dr (s.baseOffset baseR off6))

/-- `LEA DR, LABEL`: it sets the flags and reads no memory (rule R168). -/
def execLea (dr : RegId) (off9 : BitVec 9) (s : State) : Result :=
  .next (s.writeResult dr (s.pcRelative off9))

/-- `ST SR, LABEL` (rule R170). -/
def execSt (sr : RegId) (off9 : BitVec 9) (s : State) : Result :=
  .next (s.storeTo sr (s.pcRelative off9))

/-- `STI SR, LABEL` (rule R172): the pointer read, then the store. -/
def execSti (sr : RegId) (off9 : BitVec 9) (s : State) : Result :=
  .next ((s.indirect off9).2.storeTo sr (s.indirect off9).1)

/-- `STR SR, BaseR, #off6` (rule R174). -/
def execStr (sr baseR : RegId) (off6 : BitVec 6) (s : State) : Result :=
  .next (s.storeTo sr (s.baseOffset baseR off6))

end Sys2Proof.Machine
end

