-- ==== Sys2Proof/Machine/Operate.lean ====
section
/-!
DEFINITION. The operate instructions `ADD`, `AND` and `NOT` (rules R120 to R128). `s.pc` is already advanced.
-/

namespace Sys2Proof.Machine

/-- `ADD DR, SR1, SR2` (rule R122). -/
def execAddReg (dr sr1 sr2 : RegId) (s : State) : Result :=
  .next (s.writeResult dr (s.reg sr1 + s.reg sr2))

/-- `ADD DR, SR1, #imm5` (rule R123). -/
def execAddImm (dr sr1 : RegId) (imm5 : BitVec 5) (s : State) : Result :=
  .next (s.writeResult dr (s.reg sr1 + immOperand imm5))

/-- `AND DR, SR1, SR2` (rule R125). -/
def execAndReg (dr sr1 sr2 : RegId) (s : State) : Result :=
  .next (s.writeResult dr (s.reg sr1 &&& s.reg sr2))

/-- `AND DR, SR1, #imm5` (rule R126). -/
def execAndImm (dr sr1 : RegId) (imm5 : BitVec 5) (s : State) : Result :=
  .next (s.writeResult dr (s.reg sr1 &&& immOperand imm5))

/-- `NOT DR, SR` (rule R128). -/
def execNot (dr sr : RegId) (s : State) : Result :=
  .next (s.writeResult dr (~~~(s.reg sr)))

end Sys2Proof.Machine
end

