-- ==== Sys2Proof/Machine/Reserved.lean ====
section
/-!
DEFINITION. The reserved opcodes `RTI` and `RES` (rules R220, R222): both take the fatal error
`UnimplementedOpcode`, which is a next state with `STATE = FAULTED(..)`. `s.pc` is already advanced.
-/

namespace Sys2Proof.Machine

/-- `RTI` (rule R220). The fetched word is `1000 ++ ir[11:0]`. -/
def execRti (low12 : BitVec 12) (s : State) : Result :=
  .next (s.raiseUnimplemented 0x8 ((0x8 : BitVec 4) ++ low12))

/-- `RES` (rule R222). The fetched word is `1101 ++ ir[11:0]`. -/
def execRes (low12 : BitVec 12) (s : State) : Result :=
  .next (s.raiseUnimplemented 0xD ((0xD : BitVec 4) ++ low12))

end Sys2Proof.Machine
end

