-- ==== Sys2Proof/Machine/Trap.lean ====
section
/-!
DEFINITION. `TRAP` and the trap dispatcher's services (rules R190 to R210). A service is done inside the step of
its `TRAP`: no register but `R[0]`, no flag and no memory cell is written by one (rule R192). `s.pc` is already
advanced.
-/

namespace Sys2Proof.Machine

/-! ### The two services that can wait (rules R194, R200, R208) -/

/-- The hold of `GETC` and `IN` on an empty mailbox: the fetch is not committed, so `pc` stands at the
instruction again and nothing else has changed (rule R208, decision D26). -/
def State.hold (s : State) : State := s.setPc s.instrAddr

/-- `R[0] <- zext_8(k)` (rules R194, R200). -/
def State.keyToR0 (s : State) (k : Byte) : State := s.setReg 0 (zext8 k)

/-- `GETC` (rule R194). -/
def State.serviceGetc (s : State) : State :=
  match s.kbdConsume with
  | some (k, t) => t.keyToR0 k
  | none => s.hold

/-- `IN`: as `GETC`, then the echo (rule R200). -/
def State.serviceIn (s : State) : State :=
  match s.kbdConsume with
  | some (k, t) => (t.keyToR0 k).outChar k
  | none => s.hold

/-! ### Output services (rules R196, R198, R202, R210) -/

/-- `OUT` (rule R196). -/
def State.serviceOut (s : State) : State := s.outChar (lowByte (s.reg 0))

/-- One read of the loop of `PUTS` at address `a`: does it go on, and the state it leaves (rule R198). -/
def State.putsCell (s : State) (a : Word) : Bool × State :=
  if (s.memRead a).1 = 0 then (false, (s.memRead a).2)
  else (true, (s.memRead a).2.outChar (lowByte (s.memRead a).1))

/-- One read of the loop of `PUTSP` at address `a`: low byte first, stop at a zero byte (rule R202). -/
def State.putspCell (s : State) (a : Word) : Bool × State :=
  if lowByte (s.memRead a).1 = 0 then (false, (s.memRead a).2)
  else if highByte (s.memRead a).1 = 0 then (false, (s.memRead a).2.outChar (lowByte (s.memRead a).1))
  else (true, ((s.memRead a).2.outChar (lowByte (s.memRead a).1)).outChar (highByte (s.memRead a).1))

/-- One read of a string service's loop. -/
def State.stringCell (s : State) : StringKind → Word → Bool × State
  | .puts, a => s.putsCell a
  | .putsp, a => s.putspCell a

/-- At most `n` reads of a string service's loop from address `a`: does it go on after them, and the state they
leave. -/
def stringWalk (kind : StringKind) : Nat → Word → State → Bool × State
  | 0, _, s => (true, s)
  | n + 1, a, s =>
    if (s.stringCell kind a).1 then stringWalk kind n (a + 1) (s.stringCell kind a).2 else s.stringCell kind a

/-- One turn of a string service round the address space, which reads `0xFE00` at most once. -/
def State.stringTurn (s : State) (w : Walk) : Bool × State := stringWalk w.kind Config.cells w.addr s

/-- Where the loop has not ended it goes on. -/
def goOn (r : Bool × State) (next : State → Bool × State) : Bool × State := if r.1 then next r.2 else r

/-- More turns while the loop does not end, one after each of the producer's moves: a key can arrive between two
polls of one step (rule R69). -/
def moreTurns {α : Type} (w : Walk) (move : α → State → State) : List α → State → Bool × State
  | [], s => (true, s)
  | k :: ks, s => goOn ((move k s).stringTurn w) (moreTurns w move ks)

/-- The turns before which the producer's move is given. -/
def State.givenTurns (s : State) (w : Walk) : Bool × State :=
  moreTurns w (fun _ t => t.producerMove) s.keys s

/-- The turns after the given moves: the keys of the free value and then no key, which ends the loop; or a turn
with a nonzero key, the first of a service that never ends if it brings no terminator (log entry 3). -/
def State.freeTurns (s : State) (w : Walk) : Bool × State :=
  match Config.keysInService s.draws with
  | some ks => moreTurns w (fun k t => t.arrive k) (ks.map some ++ [none]) s.nextDraw
  | none => s.endlessMove.stringTurn w

/-- The loop of a string service, turn by turn, with the producer's moves between the turns. -/
def State.serviceTurns (s : State) (w : Walk) : Bool × State :=
  goOn (goOn (s.stringTurn w) (State.givenTurns · w)) (State.freeTurns · w)

/-- What a step makes of a string service: done, or one that never ends and is still in progress. -/
def leaveService (w : Walk) (r : Bool × State) : State := if r.1 then r.2.setWalk (some w) else r.2

/-- A string service: the whole of it is one step (rule R191). -/
def State.stringService (s : State) (w : Walk) : State := leaveService w (s.serviceTurns w)

/-- `PUTS` (rule R198). -/
def State.servicePuts (s : State) : State := s.stringService ⟨.puts, s.reg 0⟩

/-- `PUTSP` (rule R202). -/
def State.servicePutsp (s : State) : State := s.stringService ⟨.putsp, s.reg 0⟩

/-- A string service that never ends goes on with another turn (rule R210). -/
def State.resumeWalk (s : State) (w : Walk) : State := leaveService w ((s.setWalk none).stringTurn w)

/-! ### `HALT` and the unrecognised vector (rules R204, R206) -/

/-- `HALT` (rule R204). -/
def State.serviceHalt (s : State) : State := s.setStatus .halted

/-- The report of a vector that selects no service (rule R206). -/
def State.serviceUnknown (s : State) (v : Byte) : State :=
  s.report (.unrecognizedTrapVector v s.instrAddr)

/-! ### The instructions -/

/-- `GETC` (rule R194). -/
def execTrapGetc (s : State) : Result := .next s.serviceGetc

/-- `OUT` (rule R196). -/
def execTrapOut (s : State) : Result := .next s.serviceOut

/-- `PUTS` (rule R198). -/
def execTrapPuts (s : State) : Result := .next s.servicePuts

/-- `IN` (rule R200). -/
def execTrapIn (s : State) : Result := .next s.serviceIn

/-- `PUTSP` (rule R202). -/
def execTrapPutsp (s : State) : Result := .next s.servicePutsp

/-- `HALT` (rule R204). -/
def execTrapHalt (s : State) : Result := .next s.serviceHalt

/-- `TRAP` with an unrecognised vector (rule R206). -/
def execTrapUnknown (v : Byte) (s : State) : Result := .next (s.serviceUnknown v)

/-- `TRAP xvv`: the dispatch on the vector (rule R190). -/
def execTrap (v : Byte) (s : State) : Result :=
  if v = 0x20 then .next s.serviceGetc
  else if v = 0x21 then .next s.serviceOut
  else if v = 0x22 then .next s.servicePuts
  else if v = 0x23 then .next s.serviceIn
  else if v = 0x24 then .next s.servicePutsp
  else if v = 0x25 then .next s.serviceHalt
  else .next (s.serviceUnknown v)

end Sys2Proof.Machine
end

