-- ==== Sys2Proof/Machine/Step.lean ====
section
/-!
DEFINITION. The instruction step and the run loop's guard (rules R266, R267), with the keyboard producer's move
between two steps (rule R69, log entry 1).
-/

namespace Sys2Proof.Machine

/-- What the core does in a step: a string service that never ends goes on; otherwise fetch, advance `pc`, decode
and execute (rules R210, R266). -/
def coreStep (s : State) : Result :=
  match s.walk with
  | some w => .next (s.resumeWalk w)
  | none => exec (decode s.fetch.1) s.fetch.2

/-- One step. With `STATE` not `RUNNING` the core has no step and all state is frozen (rule R267); otherwise
the core's step, and then the producer's move, which can only touch the mailbox. -/
def step (s : State) : Host.Outcome State Fault Refusal :=
  match s.status with
  | .running =>
    match coreStep s with
    | .next t => .next t.keyboardMove
    | .fault r => .fault r
    | .refused r => .refused r
  | _ => .next s

/-- A state whose next step fetches: `STATE` running, no string service in progress, and `pc` not at the
keyboard status cell, from which no stored word can be fetched (rules R208, R267). -/
def State.readyToFetch (s : State) : State :=
  { s with
    status := .running
    walk := none
    pc := if s.pc = Config.kbsr then Config.entry else s.pc }

/-- A key in an empty mailbox where the word is one that waits for a key (rule R208). -/
def State.withKeyFor (s : State) (ir : Word) : State :=
  if (decode ir = .trapGetc ∨ decode ir = .trapIn) ∧ s.kbdSlot = none then s.setSlot (some 0) else s

/-- The state with this instruction stored where the next step fetches, so that the step runs it: log entry 5
says what else is set, and when. -/
def State.withFetchWord (s : State) (nbits w : Nat) : State :=
  (s.readyToFetch.setCell s.readyToFetch.pc (tableWord nbits w)).withKeyFor (tableWord nbits w)

end Sys2Proof.Machine
end

