-- ==== Sys2Proof/Safety.lean ====
section
/-!
DEFINITION. What claims say of a state: the end of a run, the four conditions of the core, the hold of `GETC`
and `IN`, and the invariant (rules R208, R250, R268).
-/

namespace Sys2Proof.Machine

/-- The run has ended: `STATE` is not `RUNNING` (rule R268). -/
abbrev Ended (s : State) : Prop := s.status ≠ .running

/-- The run has ended gracefully (rule R268). -/
abbrev EndedGracefully (s : State) : Prop := s.status = .halted

/-- The run has ended in error (rule R268). -/
abbrev EndedInError (s : State) : Prop := ∃ r, s.status = .faulted r

/-- The hold condition of `GETC` and `IN`, read from the stored content of the cell at `pc` (rule R208).
`s.walk = none` is the model's own: no string service is in progress. -/
abbrev Holds (s : State) : Prop :=
  s.status = .running ∧ s.walk = none ∧ s.pc ≠ Config.kbsr ∧ (s.cell s.pc).extractLsb' 12 4 = 0xF ∧
    (lowByte (s.cell s.pc) = 0x20 ∨ lowByte (s.cell s.pc) = 0x23) ∧ s.kbdSlot = none

/-- The four conditions of the core (rule R250). -/
inductive Condition where
  | running
  | waitingForKey
  | halted
  | faulted
deriving DecidableEq, Repr

/-- The condition the core is in (rule R250). -/
def condition (s : State) : Condition :=
  match s.status with
  | .halted => .halted
  | .faulted _ => .faulted
  | .running => if Holds s then .waitingForKey else .running

/-- No cell but the keyboard status cell is a terminator of `PUTS`, in a canonical memory (rule R210). -/
def NoTerminator (s : State) : Prop := Memory.wf s.mem ∧ ∀ a, a ≠ 0xFE00 → s.cell a ≠ 0

/-- A key other than `0x00` is in the mailbox. -/
def NonzeroKeyWaits (s : State) : Prop := ∃ k, s.kbdSlot = some k ∧ k ≠ 0

/-- Where a string service is in progress between two steps it is one that never ends: the run has not ended, the
service is `PUTS` (a `PUTSP` never lasts longer than one turn round memory), it stands at `R[0]`, and no cell and
no poll brings a terminator. -/
abbrev WalkInv (s : State) : Prop :=
  ∀ w, s.walk = some w →
    s.status = .running ∧ w.kind = .puts ∧ w.addr = s.reg 0 ∧ NoTerminator s ∧ NonzeroKeyWaits s

/-- The invariant that every step keeps: the memory is in canonical form, and `WalkInv`. -/
abbrev Inv (s : State) : Prop := Memory.wf s.mem ∧ WalkInv s

end Sys2Proof.Machine
end

