-- ==== Sys2Proof/Certificates/Slice0/Obligations.lean ====
section
/-!
DEFINITION. The statements for the provers. Each docstring names the rule of spec/ that the statement formalises,
or, for a derived one, the rules it rests on. `s` is a state after the fetch wherever `exec` is named, so
`s.pc` is the advanced counter (rule R25).
-/

namespace Sys2Proof.Claims

open Sys2Proof.Machine

/-! ### What a statement says stays as it was -/

def SameRegs (s t : State) : Prop := ∀ r, t.reg r = s.reg r

/-- Every cell of memory reads as before. -/
def SameCells (s t : State) : Prop := ∀ a, t.cell a = s.cell a

/-- The interface state: the mailbox, the output stream, the diagnostic log. -/
def SameIo (s t : State) : Prop := t.kbdSlot = s.kbdSlot ∧ t.out = s.out ∧ t.reports = s.reports

/-- The model's own fields. -/
def SameOwn (s t : State) : Prop := t.keys = s.keys ∧ t.draws = s.draws ∧ t.walk = s.walk

/-- `pc`, `CC` and `STATE`. -/
def SameControl (s t : State) : Prop := t.pc = s.pc ∧ t.cc = s.cc ∧ t.status = s.status

/-- Rule R29: the flag that stands for a value. -/
def FlagFor (v : Word) (c : CC) : Prop :=
  (v = 0 → c = .zro) ∧ (v ≠ 0 → v.getLsbD 15 = true → c = .neg) ∧ (v ≠ 0 → v.getLsbD 15 = false → c = .pos)

/-- `t` is `s` after `R[dr] <- v; setcc(v)` and nothing else. -/
def OnlyResult (s t : State) (dr : RegId) (v : Word) : Prop :=
  t.reg dr = v ∧ (∀ r, r ≠ dr → t.reg r = s.reg r) ∧ FlagFor v t.cc ∧ t.pc = s.pc ∧ t.status = s.status ∧
    SameCells s t ∧ SameIo s t ∧ SameOwn s t

/-- `t` is `s` after a load of the cell at `ea` into `R[dr]`: the read first (rule R54), then the write. Where
`ea` is not the keyboard status cell the read changes nothing. -/
def Loaded (s t : State) (dr : RegId) (ea : Word) : Prop :=
  OnlyResult (s.memRead ea).2 t dr (s.memRead ea).1 ∧ (ea ≠ 0xFE00 → OnlyResult s t dr (s.cell ea))

/-- `t` is `s` with `pc` at `v` and nothing else changed. -/
def OnlyPc (s t : State) (v : Word) : Prop :=
  t.pc = v ∧ SameRegs s t ∧ t.cc = s.cc ∧ t.status = s.status ∧ SameCells s t ∧ SameIo s t ∧ SameOwn s t

/-- `t` is `s` with `R[7]` and `pc` written and nothing else changed. -/
def OnlyLinkAndPc (s t : State) (link target : Word) : Prop :=
  t.reg 7 = link ∧ (∀ r, r ≠ 7 → t.reg r = s.reg r) ∧ t.pc = target ∧ t.cc = s.cc ∧ t.status = s.status ∧
    SameCells s t ∧ SameIo s t ∧ SameOwn s t

/-- `t` is `s` after a plain store of `v` at `ea` and nothing else. -/
def OnlyStored (s t : State) (ea v : Word) : Prop :=
  (∀ a, t.cell a = if a = ea then v else s.cell a) ∧ SameRegs s t ∧ SameControl s t ∧ SameIo s t ∧ SameOwn s t

/-- `t` is `s` after the reserved opcode `op` in the word `ir`: the record is in `STATE`, nothing else has
changed (rules R220, R222, R231). -/
def OnlyFaulted (s t : State) (op : BitVec 4) (ir : Word) : Prop :=
  t.status = .faulted (.unimplementedOpcode op ir (s.pc - 1)) ∧ SameRegs s t ∧ t.pc = s.pc ∧ t.cc = s.cc ∧
    SameCells s t ∧ SameIo s t ∧ SameOwn s t

/-! ### The loops of the string services, turn by turn -/

/-- `PutsRun n s a t`: the loop of rule R198, entered at address `a` in state `s`, ends in state `t` after `n`
reads. -/
inductive PutsRun : Nat → State → Word → State → Prop where
  | stop (s : State) (a : Word) : (s.memRead a).1 = 0 → PutsRun 1 s a (s.memRead a).2
  | send (n : Nat) (s : State) (a : Word) (t : State) : (s.memRead a).1 ≠ 0 →
      PutsRun n ((s.memRead a).2.outChar (lowByte (s.memRead a).1)) (a + 1) t → PutsRun (n + 1) s a t

/-- `PutspRun n s a t`: the loop of rule R202, entered at address `a` in state `s`, ends in state `t` after `n`
reads. -/
inductive PutspRun : Nat → State → Word → State → Prop where
  | stopLow (s : State) (a : Word) : lowByte (s.memRead a).1 = 0 → PutspRun 1 s a (s.memRead a).2
  | stopHigh (s : State) (a : Word) : lowByte (s.memRead a).1 ≠ 0 → highByte (s.memRead a).1 = 0 →
      PutspRun 1 s a ((s.memRead a).2.outChar (lowByte (s.memRead a).1))
  | send (n : Nat) (s : State) (a : Word) (t : State) : lowByte (s.memRead a).1 ≠ 0 →
      highByte (s.memRead a).1 ≠ 0 →
      PutspRun n (((s.memRead a).2.outChar (lowByte (s.memRead a).1)).outChar (highByte (s.memRead a).1)) (a + 1) t →
      PutspRun (n + 1) s a t

/-- `PutsTurn n s a t`: `n` reads of the loop of rule R198 from address `a` in state `s` bring no terminator and
leave state `t`. -/
inductive PutsTurn : Nat → State → Word → State → Prop where
  | none (s : State) (a : Word) : PutsTurn 0 s a s
  | send (n : Nat) (s : State) (a : Word) (t : State) : (s.memRead a).1 ≠ 0 →
      PutsTurn n ((s.memRead a).2.outChar (lowByte (s.memRead a).1)) (a + 1) t → PutsTurn (n + 1) s a t

/-- `PutsService s a t`: the loop of rule R198, entered at address `a` in state `s`, ends in state `t`, where
after each whole turn round memory the producer makes the next of its given moves (rule R69). -/
inductive PutsService : State → Word → State → Prop where
  | last (n : Nat) (s : State) (a : Word) (t : State) : n ≤ 65536 → PutsRun n s a t → PutsService s a t
  | turn (s u : State) (a : Word) (t : State) : PutsTurn 65536 s a u → u.keys ≠ [] →
      PutsService u.producerMove a t → PutsService s a t

/-- `PutsKeys ks s a t`: the loop of rule R198, entered at address `a` in state `s`, ends in state `t`, where `ks`
says for each whole turn round memory whether a key arrives after it, and which (rule R69). -/
inductive PutsKeys : List (Option Byte) → State → Word → State → Prop where
  | last (n : Nat) (s : State) (a : Word) (t : State) : n ≤ 65536 → PutsRun n s a t → PutsKeys [] s a t
  | turn (k : Option Byte) (ks : List (Option Byte)) (s u : State) (a : Word) (t : State) : PutsTurn 65536 s a u →
      PutsKeys ks (u.arrive k) a t → PutsKeys (k :: ks) s a t

/-- A running core in a `PUTS` that never ends (rule R210). -/
def Endless (s : State) (a : Word) : Prop :=
  s.status = .running ∧ s.walk = some ⟨.puts, a⟩ ∧ NoTerminator s ∧ NonzeroKeyWaits s

/-- A step from `s` leaves `pc` one further, and `v` is the word fetched there. -/
def NextFetches (s : State) (v : Word) : Prop := ∃ t, step s = .next t ∧ t.pc = s.pc + 1 ∧ t.fetch.1 = v

/-! ### What the tables of the spec say of an instruction -/

/-- The seven flag-setting instructions (rule R30). -/
def setsFlags : Instr → Bool
  | .addReg .. | .addImm .. | .andReg .. | .andImm .. | .not .. | .ld .. | .ldi .. | .ldr .. | .lea .. => true
  | _ => false

/-- The general register an instruction writes (rule R22). -/
def writesReg : Instr → Option RegId
  | .addReg dr _ _ | .addImm dr _ _ | .andReg dr _ _ | .andImm dr _ _ | .not dr _ => some dr
  | .ld dr _ | .ldi dr _ | .lea dr _ | .ldr dr _ _ => some dr
  | .jsr _ | .jsrr _ => some 7
  | .trapGetc | .trapIn => some 0
  | .trap v => if v = 0x20 ∨ v = 0x23 then some 0 else none
  | _ => none

/-- The address an instruction stores to (rules R170, R172, R174). -/
def storesTo (s : State) : Instr → Option Word
  | .st _ off9 => some (s.pcRelative off9)
  | .sti _ off9 => some (s.indirect off9).1
  | .str _ baseR off6 => some (s.baseOffset baseR off6)
  | _ => none

/-- Does the instruction make a `MemRead` after its fetch (rule R56). -/
def readsMemory : Instr → Bool
  | .ld .. | .ldi .. | .ldr .. | .sti .. | .trapPuts | .trapPutsp => true
  | .trap v => v == 0x22 || v == 0x24
  | _ => false

/-- The instructions that can write `pc` (rule R27). -/
def transfersControl : Instr → Bool
  | .br .. | .jmp .. | .jsr .. | .jsrr .. | .ret => true
  | _ => false

/-- The opcode `ir[15:12]`. -/
def op4 (ir : Word) : BitVec 4 := ir.extractLsb' 12 4

/-- The bits of a word that the decoder reads (rules R83, R93). -/
def readMask (ir : Word) : Word :=
  if op4 ir = 0x1 ∨ op4 ir = 0x5 then (if ir.getLsbD 5 then 0xFFFF else 0xFFE7)
  else if op4 ir = 0x4 then (if ir.getLsbD 11 then 0xFFFF else 0xF9C0)
  else if op4 ir = 0x9 then 0xFFC0
  else if op4 ir = 0xC then 0xF1C0
  else if op4 ir = 0xF then 0xF0FF
  else if op4 ir = 0x8 ∨ op4 ir = 0xD then 0xF000
  else 0xFFFF

end Sys2Proof.Claims

open Sys2Proof Sys2Proof.Machine Sys2Proof.Claims

/-! ### Reset, flags, operand forms -/

/-- Rule R41. The state after reset, and with the loader's image in memory: the last word the loader wrote to a
cell, and `0x0000` in every other cell. -/
def Obligations.ResetAndLoadedState : Prop :=
  ∀ image : Image, ∀ s, s = State.reset ∨ s = State.reset.load image →
    (∀ r, s.reg r = 0) ∧ s.pc = 0x3000 ∧ s.cc = .zro ∧ s.status = .running ∧ s.kbdSlot = none ∧ s.out = [] ∧
      s.reports = [] ∧ (s = State.reset → ∀ a, s.cell a = 0) ∧
      (s = State.reset.load image → ∀ a, s.cell a = (image.reverse.lookup a).getD 0)

/-- Rule R29: `setcc` leaves exactly the flag that stands for the value, and writes nothing else. -/
def Obligations.SetccDerivesTheFlag : Prop :=
  ∀ (s : State) (v : Word), FlagFor v (s.setcc v).cc ∧ SameRegs s (s.setcc v) ∧ (s.setcc v).pc = s.pc ∧
    (s.setcc v).status = s.status ∧ SameCells s (s.setcc v) ∧ SameIo s (s.setcc v) ∧ SameOwn s (s.setcc v)

/-- Rule R84, for the four widths the instruction set uses: the value as a signed integer is kept, and the high
bits are copies of the sign bit. -/
def Obligations.SignExtensionKeepsTheValue : Prop :=
  (∀ v : BitVec 5, (sext v).toInt = v.toInt ∧
    sext v = (if v.getLsbD 4 then BitVec.allOnes 11 else 0) ++ v) ∧
  (∀ v : BitVec 6, (sext v).toInt = v.toInt ∧
    sext v = (if v.getLsbD 5 then BitVec.allOnes 10 else 0) ++ v) ∧
  (∀ v : BitVec 9, (sext v).toInt = v.toInt ∧
    sext v = (if v.getLsbD 8 then BitVec.allOnes 7 else 0) ++ v) ∧
  (∀ v : BitVec 11, (sext v).toInt = v.toInt ∧
    sext v = (if v.getLsbD 10 then BitVec.allOnes 5 else 0) ++ v)

/-- Derived from rules R52 and R85 to R88: every address sum is the integer sum modulo 65536. -/
def Obligations.EffectiveAddressesWrap : Prop :=
  ∀ (s : State) (baseR : RegId) (off6 : BitVec 6) (off9 : BitVec 9) (off11 : BitVec 11),
    ((s.pcRelative off9).toNat : Int) = (s.pc.toNat + off9.toInt) % 65536 ∧
    ((s.jsrTarget off11).toNat : Int) = (s.pc.toNat + off11.toInt) % 65536 ∧
    ((s.baseOffset baseR off6).toNat : Int) = ((s.reg baseR).toNat + off6.toInt) % 65536

/-! ### Memory and the keyboard -/

/-- Rule R54: the word returned is the cell's content after the keyboard side effect, which a read of `0xFE00`
alone has. -/
def Obligations.ReadHasOneSideEffect : Prop :=
  ∀ (s : State) (a : Word),
    (a ≠ 0xFE00 → s.memRead a = (s.cell a, s)) ∧
    (a = 0xFE00 → s.memRead a = (s.kbdPoll.cell a, s.kbdPoll))

/-- Rule R55: a store writes the cell and does nothing else, at every address. -/
def Obligations.WriteIsADirectStore : Prop :=
  ∀ (s : State) (a v : Word), Memory.wf s.mem → OnlyStored s (s.memWrite a v) a v

/-- Rule R57: the poll moves a waiting key to `0xFE02` and shows it in `0xFE00`; with no key it clears `0xFE00`
and leaves `0xFE02` as it was. -/
def Obligations.PollMovesTheKey : Prop :=
  ∀ s : State, Memory.wf s.mem →
    SameRegs s s.kbdPoll ∧ SameControl s s.kbdPoll ∧ SameOwn s s.kbdPoll ∧ s.kbdPoll.out = s.out ∧
    s.kbdPoll.reports = s.reports ∧ (∀ a, a ≠ 0xFE00 → a ≠ 0xFE02 → s.kbdPoll.cell a = s.cell a) ∧
    (∀ k, s.kbdSlot = some k → s.kbdPoll.kbdSlot = none ∧ s.kbdPoll.cell 0xFE00 = 0x8000 ∧
      (s.kbdPoll.cell 0xFE02).toNat = k.toNat) ∧
    (s.kbdSlot = none → s.kbdPoll.kbdSlot = none ∧ s.kbdPoll.cell 0xFE00 = 0 ∧
      s.kbdPoll.cell 0xFE02 = s.cell 0xFE02)

/-- Derived from rule R58, items 2 to 4: with no new key, exactly one read of `0xFE00` reports a key; the code
stays in `0xFE02`; the key is in the mailbox no more. -/
def Obligations.KeyReportedByOneRead : Prop :=
  ∀ (s : State) (k : Byte), Memory.wf s.mem → s.kbdSlot = some k →
    ∃ t u, s.memRead 0xFE00 = (0x8000, t) ∧ t.kbdSlot = none ∧ t.memRead 0xFE02 = (zext8 k, t) ∧
      t.memRead 0xFE00 = (0, u) ∧ u.memRead 0xFE02 = (zext8 k, u)

/-- Derived from rules R38, R61 and R69: the producer touches the mailbox only; it fills an empty one with the
key that arrives; a full one stays full, with the old key or the new one as `KBD_OVERRUN` says. That a move
follows every step of a running core is the model's own choice (log entry 1), and that the policy is one free
value for a whole run is its choice too (log entry 2). -/
def Obligations.ProducerFillsTheMailbox : Prop :=
  (∀ s : State, SameRegs s s.producerMove ∧ SameControl s s.producerMove ∧ SameCells s s.producerMove ∧
    s.producerMove.out = s.out ∧ s.producerMove.reports = s.reports ∧ s.producerMove.walk = s.walk ∧
    (s.kbdSlot = none → s.producerMove.kbdSlot = s.arrival) ∧
    (s.kbdSlot ≠ none → s.producerMove.kbdSlot ≠ none) ∧
    s.producerMove.kbdSlot = slotAfter Config.kbdOverrun s.kbdSlot s.arrival) ∧
  (∀ (policy : KbdOverrun) (old k : Byte), slotAfter policy (some old) none = some old ∧
    slotAfter .dropNew (some old) (some k) = some old ∧ slotAfter .overwriteOld (some old) (some k) = some k)

/-! ### Operate instructions -/

/-- Rule R122. -/
def Obligations.AddRegister : Prop :=
  (∀ ir : Word, op4 ir = 0b0001 → ir.getLsbD 5 = false →
    decode ir = .addReg (ir.extractLsb' 9 3) (ir.extractLsb' 6 3) (ir.extractLsb' 0 3)) ∧
  ∀ (dr sr1 sr2 : RegId) (s : State), ∃ t, exec (.addReg dr sr1 sr2) s = .next t ∧
    OnlyResult s t dr (s.reg sr1 + s.reg sr2)

/-- Rule R123. -/
def Obligations.AddImmediate : Prop :=
  (∀ ir : Word, op4 ir = 0b0001 → ir.getLsbD 5 = true →
    decode ir = .addImm (ir.extractLsb' 9 3) (ir.extractLsb' 6 3) (ir.extractLsb' 0 5)) ∧
  ∀ (dr sr1 : RegId) (imm5 : BitVec 5) (s : State), ∃ t, exec (.addImm dr sr1 imm5) s = .next t ∧
    OnlyResult s t dr (s.reg sr1 + sext imm5)

/-- Rule R125. -/
def Obligations.AndRegister : Prop :=
  (∀ ir : Word, op4 ir = 0b0101 → ir.getLsbD 5 = false →
    decode ir = .andReg (ir.extractLsb' 9 3) (ir.extractLsb' 6 3) (ir.extractLsb' 0 3)) ∧
  ∀ (dr sr1 sr2 : RegId) (s : State), ∃ t, exec (.andReg dr sr1 sr2) s = .next t ∧
    OnlyResult s t dr (s.reg sr1 &&& s.reg sr2)

/-- Rule R126: the immediate is sign-extended. -/
def Obligations.AndImmediate : Prop :=
  (∀ ir : Word, op4 ir = 0b0101 → ir.getLsbD 5 = true →
    decode ir = .andImm (ir.extractLsb' 9 3) (ir.extractLsb' 6 3) (ir.extractLsb' 0 5)) ∧
  ∀ (dr sr1 : RegId) (imm5 : BitVec 5) (s : State), ∃ t, exec (.andImm dr sr1 imm5) s = .next t ∧
    OnlyResult s t dr (s.reg sr1 &&& sext imm5)

/-- Rule R128. -/
def Obligations.NotComplements : Prop :=
  (∀ ir : Word, op4 ir = 0b1001 → decode ir = .not (ir.extractLsb' 9 3) (ir.extractLsb' 6 3)) ∧
  ∀ (dr sr : RegId) (s : State), ∃ t, exec (.not dr sr) s = .next t ∧
    OnlyResult s t dr (0xFFFF - s.reg sr)

/-! ### Control transfer -/

/-- Rule R142, with `NOP` (rule R98): `pc` moves if a requested flag matches the current one, and nothing else
changes. -/
def Obligations.BranchOnRequestedFlag : Prop :=
  (∀ ir : Word, op4 ir = 0b0000 →
    decode ir = .br (ir.getLsbD 11) (ir.getLsbD 10) (ir.getLsbD 9) (ir.extractLsb' 0 9)) ∧
  (∀ (n z p : Bool) (off9 : BitVec 9) (s : State), ∃ t, exec (.br n z p off9) s = .next t ∧
    OnlyPc s t (if (n = true ∧ s.cc = .neg) ∨ (z = true ∧ s.cc = .zro) ∨ (p = true ∧ s.cc = .pos)
      then s.pc + sext off9 else s.pc)) ∧
  (∀ (off9 : BitVec 9) (s : State), ∃ t, exec (.nop off9) s = .next t ∧ OnlyPc s t s.pc)

/-- Rule R144, with `RET`. -/
def Obligations.JumpThroughRegister : Prop :=
  (∀ ir : Word, op4 ir = 0b1100 → decode ir = .jmp (ir.extractLsb' 6 3)) ∧
  (∀ (baseR : RegId) (s : State), ∃ t, exec (.jmp baseR) s = .next t ∧ OnlyPc s t (s.reg baseR)) ∧
  (∀ s : State, ∃ t, exec .ret s = .next t ∧ OnlyPc s t (s.reg 7))

/-- Rule R146. -/
def Obligations.CallRelative : Prop :=
  (∀ ir : Word, op4 ir = 0b0100 → ir.getLsbD 11 = true → decode ir = .jsr (ir.extractLsb' 0 11)) ∧
  ∀ (off11 : BitVec 11) (s : State), ∃ t, exec (.jsr off11) s = .next t ∧
    OnlyLinkAndPc s t s.pc (s.pc + sext off11)

/-- Rule R148: the register file is read after the write of `R[7]`, so `JSRR R7` falls through. -/
def Obligations.CallThroughRegister : Prop :=
  (∀ ir : Word, op4 ir = 0b0100 → ir.getLsbD 11 = false → decode ir = .jsrr (ir.extractLsb' 6 3)) ∧
  ∀ (baseR : RegId) (s : State), ∃ t, exec (.jsrr baseR) s = .next t ∧
    OnlyLinkAndPc s t s.pc (if baseR = 7 then s.pc else s.reg baseR)

/-! ### Loads and stores -/

/-- Rule R162. -/
def Obligations.LoadRelative : Prop :=
  (∀ ir : Word, op4 ir = 0b0010 → decode ir = .ld (ir.extractLsb' 9 3) (ir.extractLsb' 0 9)) ∧
  ∀ (dr : RegId) (off9 : BitVec 9) (s : State), ∃ t, exec (.ld dr off9) s = .next t ∧
    Loaded s t dr (s.pc + sext off9)

/-- Rule R164: the pointer read first, the data read in the state that read leaves. -/
def Obligations.LoadIndirect : Prop :=
  (∀ ir : Word, op4 ir = 0b1010 → decode ir = .ldi (ir.extractLsb' 9 3) (ir.extractLsb' 0 9)) ∧
  ∀ (dr : RegId) (off9 : BitVec 9) (s : State) (p : Word) (u : State),
    s.memRead (s.pc + sext off9) = (p, u) →
      ∃ t, exec (.ldi dr off9) s = .next t ∧ Loaded u t dr p

/-- Rule R166. -/
def Obligations.LoadBaseOffset : Prop :=
  (∀ ir : Word, op4 ir = 0b0110 → decode ir = .ldr (ir.extractLsb' 9 3) (ir.extractLsb' 6 3) (ir.extractLsb' 0 6)) ∧
  ∀ (dr baseR : RegId) (off6 : BitVec 6) (s : State), ∃ t, exec (.ldr dr baseR off6) s = .next t ∧
    Loaded s t dr (s.reg baseR + sext off6)

/-- Rule R168: the flags are set from the address, and no memory access is made. -/
def Obligations.LoadEffectiveAddress : Prop :=
  (∀ ir : Word, op4 ir = 0b1110 → decode ir = .lea (ir.extractLsb' 9 3) (ir.extractLsb' 0 9)) ∧
  ∀ (dr : RegId) (off9 : BitVec 9) (s : State), ∃ t, exec (.lea dr off9) s = .next t ∧
    OnlyResult s t dr (s.pc + sext off9)

/-- Rule R170. -/
def Obligations.StoreRelative : Prop :=
  (∀ ir : Word, op4 ir = 0b0011 → decode ir = .st (ir.extractLsb' 9 3) (ir.extractLsb' 0 9)) ∧
  ∀ (sr : RegId) (off9 : BitVec 9) (s : State), Memory.wf s.mem → ∃ t, exec (.st sr off9) s = .next t ∧
    OnlyStored s t (s.pcRelative off9) (s.reg sr)

/-- Rule R172: the pointer read, then a plain store at the pointer in the state that read leaves. -/
def Obligations.StoreIndirect : Prop :=
  (∀ ir : Word, op4 ir = 0b1011 → decode ir = .sti (ir.extractLsb' 9 3) (ir.extractLsb' 0 9)) ∧
  ∀ (sr : RegId) (off9 : BitVec 9) (s : State) (p : Word) (u : State), Memory.wf s.mem →
    s.memRead (s.pc + sext off9) = (p, u) →
      ∃ t, exec (.sti sr off9) s = .next t ∧ OnlyStored u t p (s.reg sr)

/-- Rule R174. -/
def Obligations.StoreBaseOffset : Prop :=
  (∀ ir : Word, op4 ir = 0b0111 → decode ir = .str (ir.extractLsb' 9 3) (ir.extractLsb' 6 3) (ir.extractLsb' 0 6)) ∧
  ∀ (sr baseR : RegId) (off6 : BitVec 6) (s : State), Memory.wf s.mem →
    ∃ t, exec (.str sr baseR off6) s = .next t ∧ OnlyStored s t (s.baseOffset baseR off6) (s.reg sr)

/-! ### Trap services -/

/-- Derived from rules R194 and R208: with a key in the mailbox it is taken into `R[0]`. With none the step is not
enabled (R194); that `exec` then answers a state with `pc` at the `GETC` again and nothing else changed is the
model's deduction (log entry 9). -/
def Obligations.GetcTakesTheKey : Prop :=
  (∀ ir : Word, op4 ir = 0b1111 → ir.extractLsb' 0 8 = 0x20 → decode ir = .trapGetc) ∧
  (∀ (s : State) (k : Byte), s.kbdSlot = some k → ∃ t, exec .trapGetc s = .next t ∧
    (t.reg 0).toNat = k.toNat ∧ (∀ r, r ≠ 0 → t.reg r = s.reg r) ∧ t.kbdSlot = none ∧ SameControl s t ∧
    SameCells s t ∧ t.out = s.out ∧ t.reports = s.reports ∧ SameOwn s t) ∧
  (∀ s : State, s.kbdSlot = none → ∃ t, exec .trapGetc s = .next t ∧ OnlyPc s t (s.pc - 1))

/-- Derived from rules R200 and R208: as `GETC`, and the key taken is sent to the output. With no key the step is
not enabled (R200); that `exec` then answers a state with `pc` at the `IN` again and nothing else changed is the
model's deduction (log entry 9). -/
def Obligations.InEchoesTheKey : Prop :=
  (∀ ir : Word, op4 ir = 0b1111 → ir.extractLsb' 0 8 = 0x23 → decode ir = .trapIn) ∧
  (∀ (s : State) (k : Byte), s.kbdSlot = some k → ∃ t, exec .trapIn s = .next t ∧
    (t.reg 0).toNat = k.toNat ∧ (∀ r, r ≠ 0 → t.reg r = s.reg r) ∧ t.kbdSlot = none ∧ SameControl s t ∧
    SameCells s t ∧ t.out = s.out ++ [k] ∧ t.reports = s.reports ∧ SameOwn s t) ∧
  (∀ s : State, s.kbdSlot = none → ∃ t, exec .trapIn s = .next t ∧ OnlyPc s t (s.pc - 1))

/-- Rule R196. -/
def Obligations.OutSendsTheLowByte : Prop :=
  (∀ ir : Word, op4 ir = 0b1111 → ir.extractLsb' 0 8 = 0x21 → decode ir = .trapOut) ∧
  ∀ s : State, ∃ t c, exec .trapOut s = .next t ∧ t.out = s.out ++ [c] ∧
    c.toNat = (s.reg 0).toNat % 256 ∧ SameRegs s t ∧ SameControl s t ∧ SameCells s t ∧
    t.kbdSlot = s.kbdSlot ∧ t.reports = s.reports ∧ SameOwn s t

/-- Derived from rule R198: where the loop from `R[0]` ends within one turn round memory, `PUTS` leaves the state
the loop leaves. `PutsIsOneStep` and `PutsWithoutTerminatorGoesOn` say what comes after a whole turn. -/
def Obligations.PutsIsItsLoop : Prop :=
  (∀ ir : Word, op4 ir = 0b1111 → ir.extractLsb' 0 8 = 0x22 → decode ir = .trapPuts) ∧
  ∀ (s t : State) (n : Nat), n ≤ 65536 → PutsRun n s (s.reg 0) t → exec .trapPuts s = .next t

/-- Derived from rule R198, as its source's example has it: a string of nonzero cells before a zero cell, none
of them the keyboard status cell, is sent whole, and nothing else changes. -/
def Obligations.PutsSendsTheString : Prop :=
  ∀ (s : State) (ws : List Word), ws.length < 65536 →
    (∀ k (h : k < ws.length), s.cell (s.reg 0 + BitVec.ofNat 16 k) = ws[k] ∧ ws[k] ≠ 0) →
    s.cell (s.reg 0 + BitVec.ofNat 16 ws.length) = 0 →
    (∀ k, k ≤ ws.length → s.reg 0 + BitVec.ofNat 16 k ≠ 0xFE00) →
      exec .trapPuts s = .next { s with out := s.out ++ ws.map lowByte }

/-- Rule R202: `PUTSP` leaves the state that the loop from `R[0]` leaves. -/
def Obligations.PutspIsItsLoop : Prop :=
  (∀ ir : Word, op4 ir = 0b1111 → ir.extractLsb' 0 8 = 0x24 → decode ir = .trapPutsp) ∧
  ∀ (s t : State) (n : Nat), Memory.wf s.mem → PutspRun n s (s.reg 0) t → exec .trapPutsp s = .next t

/-- Derived from rules R57 and R202: the loop of `PUTSP` always ends within one turn round memory, since a read of
`0xFE00` returns a word whose low byte is 0. This is the model's deduction (log entry 14), against the remark of
rule R210 that a `PUTSP` can go on without a terminator. `s.walk = none` is about the model's own field (log
entry 3). -/
def Obligations.PutspAlwaysEnds : Prop :=
  ∀ s : State, Memory.wf s.mem → s.walk = none →
    ∃ n t, n ≤ 65536 ∧ PutspRun n s (s.reg 0) t ∧ exec .trapPutsp s = .next t ∧ t.walk = none ∧
      SameRegs s t ∧ SameControl s t

/-- Derived from rules R69, R191 and R198: a `PUTS` whose loop ends is one step, whichever turn round memory ends
it. Where the keys that arrive between its turns are the given ones, `exec` answers the state the loop leaves;
and wherever `exec` answers with the service done, the answer is the state that the loop leaves for some keys
between its turns. That the moves given in `State.keys` are made one after each whole turn, and the fields `keys`,
`draws` and `walk`, are the model's own choices (log entries 1 and 3). -/
def Obligations.PutsIsOneStep : Prop :=
  (∀ s t : State, PutsService s (s.reg 0) t → exec .trapPuts s = .next t) ∧
  (∀ s t : State, Memory.wf s.mem → exec .trapPuts s = .next t → s.walk = none → t.walk = none →
    ∃ ks u, PutsKeys ks s (s.reg 0) u ∧ t = { u with keys := t.keys, draws := t.draws })

/-- Derived from rules R191, R198 and R210: a `PUTS` is done in its one step, or it never ends. Where it is not
done, the state after the step is that of a `PUTS` that never ends; a step from such a state fetches nothing,
sends 65536 more characters and leaves such a state again, with the registers, `pc`, `CC` and `STATE` as before,
so `STATE` stays `RUNNING` for ever. Where the memory and the mailbox can keep it going and no moves of the
producer are given, the free value says which of the two it is. The last clause is about states that no run
reaches: a step goes on with the loop of a service in progress also where that loop ends. The states of a `PUTS`
that never ends, one for each turn (log entry 3), and the producer's moves (log entry 1) are the model's own
choices. -/
def Obligations.PutsWithoutTerminatorGoesOn : Prop :=
  (∀ s : State, Memory.wf s.mem → s.walk = none → s.status = .running →
    ∃ t, exec .trapPuts s = .next t ∧ SameRegs s t ∧ SameControl s t ∧
      (t.walk = none ∨ s.out.length + 65536 ≤ t.out.length ∧ Endless t.keyboardMove (s.reg 0))) ∧
  (∀ (s : State) (a : Word), Endless s a → ∃ t, step s = .next t ∧ Endless t a ∧ SameRegs s t ∧ SameControl s t ∧
    t.out.length = s.out.length + 65536) ∧
  (∀ s : State, NoTerminator s → NonzeroKeyWaits s → s.walk = none → s.keys = [] →
    ∃ t, exec .trapPuts s = .next t ∧ s.out.length + 65536 ≤ t.out.length ∧
      (t.walk = none ↔ Config.keysInService s.draws ≠ none)) ∧
  (∀ (s t : State) (a : Word) (n : Nat), s.status = .running → s.walk = some ⟨.puts, a⟩ → n ≤ 65536 →
    PutsRun n (s.setWalk none) a t → step s = .next t.producerMove)

/-- Rule R204. -/
def Obligations.HaltStops : Prop :=
  (∀ ir : Word, op4 ir = 0b1111 → ir.extractLsb' 0 8 = 0x25 → decode ir = .trapHalt) ∧
  ∀ s : State, ∃ t, exec .trapHalt s = .next t ∧ t.status = .halted ∧ SameRegs s t ∧ t.pc = s.pc ∧
    t.cc = s.cc ∧ SameCells s t ∧ SameIo s t ∧ SameOwn s t

/-- Rule R206: every vector but the six service codes. -/
def Obligations.UnknownVectorIsReported : Prop :=
  ∀ (s : State) (v : Byte), (v.toNat < 0x20 ∨ 0x25 < v.toNat) →
    (∀ ir : Word, op4 ir = 0b1111 → ir.extractLsb' 0 8 = v → decode ir = .trapUnknown v) ∧
    ∀ i, i = .trapUnknown v ∨ i = .trap v → ∃ t, exec i s = .next t ∧
      t.reports = s.reports ++ [.unrecognizedTrapVector v (s.pc - 1)] ∧ SameRegs s t ∧ SameControl s t ∧
      SameCells s t ∧ t.kbdSlot = s.kbdSlot ∧ t.out = s.out ∧ SameOwn s t

/-- Derived from rule R190: the dispatch on the vector, which is `ir[7:0]` of the `TRAP` word. That the answer is a
next state also where `GETC` or `IN` waits is the model's deduction (log entry 9), and where a `PUTS` meets no
terminator it is the model's own choice (log entry 3); that the decoder names the service's row is
its choice too (log entry 10). Each service is the one its own row means, and the answer is a next
state; `PUTS` and `PUTSP` are `PutsIsItsLoop` and `PutspIsItsLoop`. -/
def Obligations.TrapDispatchesOnTheVector : Prop :=
  ∀ (s : State) (v : Byte),
    (∃ t, exec (.trap v) s = .next t ∧ t.reg 7 = s.reg 7 ∧ t.cc = s.cc) ∧
    (∀ ir : Word, op4 ir = 0b1111 → ir.extractLsb' 0 8 = v → exec (decode ir) s = exec (.trap v) s) ∧
    (v = 0x20 → exec (.trap v) s = exec .trapGetc s) ∧
    (v = 0x21 → exec (.trap v) s = exec .trapOut s) ∧
    (v = 0x22 → exec (.trap v) s = exec .trapPuts s) ∧
    (v = 0x23 → exec (.trap v) s = exec .trapIn s) ∧
    (v = 0x24 → exec (.trap v) s = exec .trapPutsp s) ∧
    (v = 0x25 → exec (.trap v) s = exec .trapHalt s) ∧
    ((v.toNat < 0x20 ∨ 0x25 < v.toNat) → exec (.trap v) s = exec (.trapUnknown v) s)

/-- Derived from rule R208: while the hold condition is true the core does nothing. That the model's step then
answers the state as it was is its deduction (log entry 9), and the producer's move, the one thing the step
does, is its own choice (log entry 1). -/
def Obligations.HoldChangesNothing : Prop :=
  ∀ s : State, Holds s → step s = .next s.producerMove

/-- Derived from rules R194, R200 and R208: the key that arrives lifts the hold of a `GETC` or an `IN`, which the
next step completes. That the waiting step answers the state as it was is the model's deduction (log entry 9);
that the key comes in the producer's move after that step is its own choice (log entry 1). -/
def Obligations.KeyLiftsTheHold : Prop :=
  ∀ (s : State) (k : Byte), Holds s → s.arrival = some k →
    ∃ t u, step s = .next t ∧ t.pc = s.pc ∧ t.kbdSlot = some k ∧ step t = .next u ∧ u.pc = s.pc + 1 ∧
      (u.reg 0).toNat = k.toNat ∧ u.out = (if lowByte (s.cell s.pc) = 0x23 then s.out ++ [k] else s.out) ∧
      u.cc = s.cc ∧ u.status = .running

/-! ### The reserved opcodes, and the end of a run -/

/-- Rule R220. -/
def Obligations.RtiFaults : Prop :=
  ∀ (s : State) (ir : Word), op4 ir = 0b1000 → decode ir = .rti (ir.extractLsb' 0 12) ∧
    ∃ t, exec (.rti (ir.extractLsb' 0 12)) s = .next t ∧ OnlyFaulted s t 0b1000 ir

/-- Rule R222. -/
def Obligations.ResFaults : Prop :=
  ∀ (s : State) (ir : Word), op4 ir = 0b1101 → decode ir = .res (ir.extractLsb' 0 12) ∧
    ∃ t, exec (.res (ir.extractLsb' 0 12)) s = .next t ∧ OnlyFaulted s t 0b1101 ir

/-- Derived from rule R267: a core that is not running has no step and all state is frozen. That the model's step
then answers the very same state, the mailbox and the producer's moves included, is its deduction (log
entry 8). -/
def Obligations.StoppedCoreIsFrozen : Prop :=
  ∀ (s : State) (n : Nat), s.status ≠ .running → step s = .next s ∧ Host.Core.run Sys2Proof.core n s = .next s

/-- Derived from rule R33: `STATE` has two transitions, both out of `RUNNING`, and no other; a running core that
fetches their words makes them; `STATE` is `RUNNING` at reset. `s.walk = none` says that no string service is in
progress, a field of the model's own (log entry 3); that a stopped core answers the same state is its deduction
(log entry 8), and that the fatal error is a next state too (log entry 11). -/
def Obligations.StatusTransitions : Prop :=
  (∀ s t : State, step s = .next t → t.status ≠ s.status →
    s.status = .running ∧
      ((decode s.fetch.1 = .trapHalt ∧ t.status = .halted) ∨
       (∃ op, (op = 0b1000 ∨ op = 0b1101) ∧ op4 s.fetch.1 = op ∧
          t.status = .faulted (.unimplementedOpcode op s.fetch.1 s.pc)))) ∧
  (∀ s : State, s.status = .running → s.walk = none →
    (decode s.fetch.1 = .trapHalt → ∃ t, step s = .next t ∧ t.status = .halted) ∧
    (∀ op, (op = 0b1000 ∨ op = 0b1101) → op4 s.fetch.1 = op →
      ∃ t, step s = .next t ∧ t.status = .faulted (.unimplementedOpcode op s.fetch.1 s.pc))) ∧
  State.reset.status = .running

/-! ### Rules of the whole machine -/

/-- Derived from rule R30: the seven flag-setting instructions set the flag of the value they write, and no other
instruction writes `CC`. -/
def Obligations.FlagWriters : Prop :=
  ∀ (i : Instr) (s t : State), exec i s = .next t →
    (setsFlags i = false → t.cc = s.cc) ∧
    (setsFlags i = true → ∃ dr, writesReg i = some dr ∧ FlagFor (t.reg dr) t.cc)

/-- Derived from rule R30: `BR` is the only reader of `CC`. Whatever the flags were, every other instruction does
the same. -/
def Obligations.FlagReaders : Prop :=
  ∀ (i : Instr) (s t : State) (c : CC), (∀ n z p off9, i ≠ .br n z p off9) → exec i s = .next t →
    exec i (s.setCc c) = .next (if setsFlags i then t else t.setCc c)

/-- Derived from rule R22: the only general register an instruction writes. -/
def Obligations.RegisterWriters : Prop :=
  ∀ (i : Instr) (s t : State), exec i s = .next t → ∀ r, writesReg i ≠ some r → t.reg r = s.reg r

/-- Derived from rules R54 to R56, R161 and R192: an instruction changes no cell but the one it stores to and,
where it reads memory, the two keyboard cells. -/
def Obligations.MemoryWriters : Prop :=
  ∀ (i : Instr) (s t : State), Memory.wf s.mem → exec i s = .next t →
    ∀ a, storesTo s i ≠ some a → (readsMemory i = true → a ≠ 0xFE00 ∧ a ≠ 0xFE02) → t.cell a = s.cell a

/-- Derived from rules R25, R27 and R208: after a step that fetches an instruction which does not transfer
control, `pc` is one further, or the core is waiting for a key. That a waiting core's step answers a state with
`pc` as it was is the model's deduction (log entry 9); that a `PUTS` that never ends leaves a step
of the model with `pc` one further is its own choice (log entry 3). -/
def Obligations.CounterAdvances : Prop :=
  ∀ s t : State, Memory.wf s.mem → s.status = .running → s.walk = none → step s = .next t →
    transfersControl (decode s.fetch.1) = false → t.pc = s.pc + 1 ∨ (Holds s ∧ t.pc = s.pc)

/-- Derived from rules R230 and R233: no instruction and no step ends in a fault or a refusal of the model. These
rules say that nothing but the one fatal error stops the core; that the model answers a next state for that error
too (log entry 11), for a stopped core (log entry 8) and for a core that waits (log entry 9) is its deduction,
and for a `PUTS` without a terminator its own choice (log entry 3). -/
def Obligations.NothingStopsTheModel : Prop :=
  (∀ (i : Instr) (s : State), ∃ t, exec i s = .next t) ∧ (∀ s : State, ∃ t, step s = .next t)

/-- Derived from rule R67: a `ST`, `STI` or `STR` to the word that follows it is seen by the very next fetch. A
fetch from `0xFE00` is left out, since there rule R57 decides the word (R64). `s.walk = none` is about the model's
own field (log entry 3). -/
def Obligations.StoreSeenByNextFetch : Prop :=
  ∀ (s : State) (sr baseR : RegId) (off6 : BitVec 6) (off9 : BitVec 9), Memory.wf s.mem → s.status = .running →
    s.walk = none → s.pc + 1 ≠ 0xFE00 →
      (decode s.fetch.1 = .st sr off9 → s.fetch.2.pcRelative off9 = s.pc + 1 → NextFetches s (s.reg sr)) ∧
      (decode s.fetch.1 = .sti sr off9 → (s.fetch.2.indirect off9).1 = s.pc + 1 → NextFetches s (s.reg sr)) ∧
      (decode s.fetch.1 = .str sr baseR off6 → s.fetch.2.baseOffset baseR off6 = s.pc + 1 →
        NextFetches s (s.reg sr))

/-! ### The step and the decoder -/

/-- Derived from rule R266: in a running core with no string service in progress, the step fetches the word at
`pc`, advances `pc` by one, decodes the word to a well-formed instruction and executes it; then comes the
producer's move, which is the model's own choice (log entry 1). -/
def Obligations.StepRunsTheDecodedInstruction : Prop :=
  ∀ (s t : State) (ir : Word) (u : State), s.status = .running → s.walk = none → s.memRead s.pc = (ir, u) →
    exec (decode ir) (u.setPc (s.pc + 1)) = .next t →
      (decode ir).wellFormed = true ∧ step s = .next t.keyboardMove

/-- Rule R91, opcode by opcode; a `TRAP` word's instruction is named by its service (rules R98, R99), which
`core` undoes. -/
def Obligations.DecodeFollowsTheOpcodeMap : Prop :=
  ∀ ir : Word,
    (op4 ir = 0b0000 → (decode ir).core =
      .br (ir.getLsbD 11) (ir.getLsbD 10) (ir.getLsbD 9) (ir.extractLsb' 0 9)) ∧
    (op4 ir = 0b0001 → ir.getLsbD 5 = false → (decode ir).core =
      .addReg (ir.extractLsb' 9 3) (ir.extractLsb' 6 3) (ir.extractLsb' 0 3)) ∧
    (op4 ir = 0b0001 → ir.getLsbD 5 = true → (decode ir).core =
      .addImm (ir.extractLsb' 9 3) (ir.extractLsb' 6 3) (ir.extractLsb' 0 5)) ∧
    (op4 ir = 0b0010 → (decode ir).core = .ld (ir.extractLsb' 9 3) (ir.extractLsb' 0 9)) ∧
    (op4 ir = 0b0011 → (decode ir).core = .st (ir.extractLsb' 9 3) (ir.extractLsb' 0 9)) ∧
    (op4 ir = 0b0100 → ir.getLsbD 11 = true → (decode ir).core = .jsr (ir.extractLsb' 0 11)) ∧
    (op4 ir = 0b0100 → ir.getLsbD 11 = false → (decode ir).core = .jsrr (ir.extractLsb' 6 3)) ∧
    (op4 ir = 0b0101 → ir.getLsbD 5 = false → (decode ir).core =
      .andReg (ir.extractLsb' 9 3) (ir.extractLsb' 6 3) (ir.extractLsb' 0 3)) ∧
    (op4 ir = 0b0101 → ir.getLsbD 5 = true → (decode ir).core =
      .andImm (ir.extractLsb' 9 3) (ir.extractLsb' 6 3) (ir.extractLsb' 0 5)) ∧
    (op4 ir = 0b0110 → (decode ir).core =
      .ldr (ir.extractLsb' 9 3) (ir.extractLsb' 6 3) (ir.extractLsb' 0 6)) ∧
    (op4 ir = 0b0111 → (decode ir).core =
      .str (ir.extractLsb' 9 3) (ir.extractLsb' 6 3) (ir.extractLsb' 0 6)) ∧
    (op4 ir = 0b1000 → (decode ir).core = .rti (ir.extractLsb' 0 12)) ∧
    (op4 ir = 0b1001 → (decode ir).core = .not (ir.extractLsb' 9 3) (ir.extractLsb' 6 3)) ∧
    (op4 ir = 0b1010 → (decode ir).core = .ldi (ir.extractLsb' 9 3) (ir.extractLsb' 0 9)) ∧
    (op4 ir = 0b1011 → (decode ir).core = .sti (ir.extractLsb' 9 3) (ir.extractLsb' 0 9)) ∧
    (op4 ir = 0b1100 → (decode ir).core = .jmp (ir.extractLsb' 6 3)) ∧
    (op4 ir = 0b1101 → (decode ir).core = .res (ir.extractLsb' 0 12)) ∧
    (op4 ir = 0b1110 → (decode ir).core = .lea (ir.extractLsb' 9 3) (ir.extractLsb' 0 9)) ∧
    (op4 ir = 0b1111 → (decode ir).core = .trap (ir.extractLsb' 0 8))

/-- Derived from rules R82, R83 and R91: decoding the word of a well-formed instruction gives that instruction,
and every word decodes to a well-formed one. -/
def Obligations.DecodeUndoesEncode : Prop :=
  (∀ i : Instr, i.wellFormed = true → decode (encode i) = i) ∧ (∀ ir : Word, (decode ir).wellFormed = true)

/-- Derived from rules R83, R91 and R93: encoding what a word decodes to gives the word back, in every bit that
the decoder reads. -/
def Obligations.EncodeKeepsTheReadBits : Prop :=
  ∀ ir : Word, encode (decode ir) &&& readMask ir = ir &&& readMask ir

/-- Derived from rule R93: two words that agree in the bits the decoder reads are the same instruction; two `RTI`
or two `RES` words differ in the fault record alone. -/
def Obligations.IgnoredBitsDoNotMatter : Prop :=
  ∀ v w : Word, v &&& readMask w = w &&& readMask w →
    (op4 w ≠ 0b1000 → op4 w ≠ 0b1101 → decode v = decode w) ∧
    (op4 w = 0b1000 ∨ op4 w = 0b1101 → ∀ s, ∃ t, exec (decode w) s = .next t ∧
      exec (decode v) s = .next (t.setStatus (.faulted (.unimplementedOpcode (op4 w) v (s.pc - 1)))))

/-- Derived from rule R98: `RET` and `NOP` do what their instruction does and their words decode to it; a service's
row does what `TRAP` of its vector does. Rule R98 decodes a service name as `TRAP`: that the decoder names the
word of `TRAP v` by the service's row is the model's own choice (log entry 10), and `core` undoes it. -/
def Obligations.AliasesAddNothing : Prop :=
  ∀ (s : State) (off9 : BitVec 9) (v : Byte),
    exec .ret s = exec (.jmp 7) s ∧ decode (encode .ret) = .jmp 7 ∧
    exec (.nop off9) s = exec (.br false false false off9) s ∧
    decode (encode (.nop off9)) = .br false false false off9 ∧
    exec (trapRow v) s = exec (.trap v) s ∧ decode (encode (.trap v)) = trapRow v ∧
    (trapRow v).core = .trap v

/-- Derived from rule R83: one word of every format, written out from the encoding table. -/
def Obligations.SpecWordsDecode : Prop :=
  decode 0b0000010000000101 = .br false true false 5 ∧ decode 0b0001010000000001 = .addReg 2 0 1 ∧
  decode 0b0101011001110000 = .andImm 3 1 0b10000 ∧ decode 0b1001001000111111 = .not 1 0 ∧
  decode 0b1100000011000000 = .jmp 3 ∧ decode 0b0100100000010000 = .jsr 16 ∧
  decode 0b0100000011000000 = .jsrr 3 ∧ decode 0b1010010111101111 = .ldi 2 0b111101111 ∧
  decode 0b0111001010000011 = .str 1 2 3 ∧ decode 0b1111000000100000 = .trapGetc ∧
  decode 0b1111000000100110 = .trapUnknown 0x26 ∧ decode 0b1000000000000000 = .rti 0 ∧
  decode 0b1101101010111100 = .res 0xABC

/-! ### The invariant -/

/-- Derived from rules R41 and R53: at reset and in every start state of a program the invariant holds and no
string service is in progress. The rules give the values at reset and what the loader writes; the canonical form
of memory (log entry 4), the string service in progress and its value at reset (log entries 3 and 7), an image at
any address (log entry 12) and the producer's move in `State.start` (log entry 1) are the model's own choices. -/
def Obligations.InvariantAtReset : Prop :=
  (Inv State.reset ∧ State.reset.walk = none) ∧
    ∀ image : Image, Inv (State.start image) ∧ (State.start image).walk = none

/-- Derived from rules R33, R55, R57, R191, R198, R202 and R210: every step keeps the invariant: the memory stays in
its canonical form, and a string service in progress between two steps is one that never ends: a `PUTS` of a
running core that stands at `R[0]`, with no terminator in any cell but the keyboard status cell and a nonzero key
waiting. The canonical form (log entry 4) and a string service in progress between two steps (log entry 3) are
the model's own choices; that such a service is a `PUTS` and never a `PUTSP` is its deduction from R57 and R202
(log entry 14), against the remark of rule R210. -/
def Obligations.StepKeepsTheInvariant : Prop :=
  ∀ s t : State, Inv s → step s = .next t → Inv t

/-- Derived from rules R61 and R69: two states that differ only in the producer's coming moves go to states that
differ only there and in the mailbox, unless the step is a `PUTS` that does not end within one turn round memory,
the one case in which rule R69 says that a key between two polls of a step matters. That the producer moves after
the step where no such `PUTS` runs is the model's own choice (log entry 1). -/
def Obligations.ProducerCannotReachTheCore : Prop :=
  ∀ (s t : State) (keys : List (Option Byte)) (draws : Nat), Memory.wf s.mem → step s = .next t →
    (s.walk = none → decode s.fetch.1 = .trapPuts → ∃ n u, n ≤ 65536 ∧ PutsRun n s.fetch.2 (s.reg 0) u) →
      ∃ t', step { s with keys := keys, draws := draws } = .next t' ∧
        t' = { t with kbdSlot := t'.kbdSlot, keys := t'.keys, draws := t'.draws }
end

