-- ==== Sys2Proof/Laws/Memory.lean ====
section
/-!
SUPPORT. The laws of the memory list: read after write, and the canonical form that every write keeps.
-/

namespace Sys2Proof.Machine

theorem Memory.read_cons (b : Nat) (w : Word) (m : Memory) (a : Nat) :
    Memory.read ((b, w) :: m) a = if b = a then w else Memory.read m a := rfl

/-- A cell below every listed address reads as an unlisted one. -/
theorem Memory.read_eq_zero_of_lt {m : Memory} {a : Nat} (h : ∀ c ∈ m, a < c.1) : Memory.read m a = 0 := by
  induction m with
  | nil => rfl
  | cons c m ih =>
    have hc := h c (by simp)
    rw [show c = (c.1, c.2) from rfl, Memory.read_cons, if_neg (by omega)]
    exact ih fun d hd => h d (by simp [hd])

/-- The tail of a canonical memory is canonical. -/
theorem Memory.wf_tail {c : Nat × Word} {m : Memory} (h : Memory.wf (c :: m)) : Memory.wf m :=
  ⟨(List.pairwise_cons.mp h.1).2, fun d hd => h.2 d (by simp [hd])⟩

/-- Every address of the tail of a canonical memory lies above its head. -/
theorem Memory.lt_of_mem_tail {c : Nat × Word} {m : Memory} (h : Memory.wf (c :: m)) {d : Nat × Word}
    (hd : d ∈ m) : c.1 < d.1 := (List.pairwise_cons.mp h.1).1 d hd

/-- What a write does to every read, in a canonical memory. -/
theorem Memory.read_write {m : Memory} (h : Memory.wf m) (a : Nat) (v : Word) (b : Nat) :
    Memory.read (Memory.write m a v) b = if b = a then v else Memory.read m b := by
  induction m with
  | nil =>
    by_cases hv : v = 0
    · subst hv
      rw [Memory.write, if_pos rfl]
      exact (ite_self (Memory.read [] b)).symm
    · rw [Memory.write, if_neg hv, Memory.read_cons]
      simp only [eq_comm]
  | cons c m ih =>
    obtain ⟨x, w⟩ := c
    have ih := ih (Memory.wf_tail h)
    have low : ∀ d ∈ m, x < d.1 := fun d hd => Memory.lt_of_mem_tail h hd
    by_cases h1 : a < x
    · have unlisted : Memory.read ((x, w) :: m) a = 0 := Memory.read_eq_zero_of_lt fun d hd => by
        rcases List.mem_cons.mp hd with rfl | hd
        · exact h1
        · exact lt_trans h1 (low d hd)
      by_cases hv : v = 0
      · subst hv
        rw [Memory.write, if_pos h1, if_pos rfl]
        split_ifs with hb
        · rw [hb, unlisted]
        · rfl
      · rw [Memory.write, if_pos h1, if_neg hv, Memory.read_cons]
        simp only [eq_comm]
    · by_cases h2 : a = x
      · subst h2
        have unlisted : Memory.read m a = 0 := Memory.read_eq_zero_of_lt low
        by_cases hv : v = 0
        · subst hv
          rw [Memory.write, if_neg h1, if_pos rfl, if_pos rfl, Memory.read_cons]
          by_cases hb : b = a
          · rw [if_pos hb, hb, unlisted]
          · rw [if_neg hb, if_neg (Ne.symm hb)]
        · rw [Memory.write, if_neg h1, if_pos rfl, if_neg hv, Memory.read_cons, Memory.read_cons]
          by_cases hb : b = a
          · rw [if_pos hb, if_pos hb.symm]
          · rw [if_neg hb, if_neg (Ne.symm hb), if_neg (Ne.symm hb)]
      · rw [Memory.write, if_neg h1, if_neg h2, Memory.read_cons, Memory.read_cons, ih]
        by_cases hb : b = a
        · rw [if_pos hb, if_pos hb, if_neg (by omega)]
        · rw [if_neg hb, if_neg hb]

/-- The addresses a write leaves listed are the ones that were, and the one written. -/
theorem Memory.mem_write {m : Memory} {a : Nat} {v : Word} {d : Nat × Word}
    (hd : d ∈ Memory.write m a v) : d ∈ m ∨ (d = (a, v) ∧ v ≠ 0) := by
  induction m with
  | nil =>
    unfold Memory.write at hd
    split at hd
    · exact .inl hd
    · exact .inr ⟨List.mem_singleton.mp hd, ‹_›⟩
  | cons c m ih =>
    obtain ⟨x, w⟩ := c
    simp only [Memory.write] at hd
    split_ifs at hd with h1 h2 h3 h4
    · exact .inl hd
    · rcases List.mem_cons.mp hd with rfl | hd
      · exact .inr ⟨rfl, h2⟩
      · exact .inl hd
    · exact .inl (List.mem_cons_of_mem _ hd)
    · rcases List.mem_cons.mp hd with rfl | hd
      · exact .inr ⟨rfl, h4⟩
      · exact .inl (List.mem_cons_of_mem _ hd)
    · rcases List.mem_cons.mp hd with rfl | hd
      · exact .inl (by simp)
      · rcases ih hd with hd | hd
        · exact .inl (List.mem_cons_of_mem _ hd)
        · exact .inr hd

/-- A write inside the address space keeps the canonical form. -/
theorem Memory.write_wf {m : Memory} (h : Memory.wf m) {a : Nat} (ha : a < Config.cells) (v : Word) :
    Memory.wf (Memory.write m a v) := by
  refine ⟨?_, fun d hd => ?_⟩
  · induction m with
    | nil => unfold Memory.write; split <;> simp
    | cons c m ih =>
      obtain ⟨x, w⟩ := c
      have low : ∀ d ∈ m, x < d.1 := fun d hd => Memory.lt_of_mem_tail h hd
      have hm := Memory.wf_tail h
      simp only [Memory.write]
      split_ifs with h1 h2 h3 h4
      · exact h.1
      · refine List.pairwise_cons.mpr ⟨fun d hd => ?_, h.1⟩
        rcases List.mem_cons.mp hd with rfl | hd
        · exact h1
        · exact lt_trans h1 (low d hd)
      · exact hm.1
      · exact List.pairwise_cons.mpr ⟨fun d hd => h3 ▸ low d hd, hm.1⟩
      · refine List.pairwise_cons.mpr ⟨fun d hd => ?_, ih hm⟩
        rcases Memory.mem_write hd with hd | ⟨rfl, -⟩
        · exact low d hd
        · simp only; omega
  · rcases Memory.mem_write hd with hd | ⟨rfl, hv⟩
    · exact h.2 d hd
    · exact ⟨ha, hv⟩

/-- An address is below the number of cells. -/
theorem Config.word_lt_cells (a : Word) : a.toNat < Config.cells := a.isLt

/-- The memory at reset is canonical. -/
theorem Memory.reset_wf : Memory.wf State.reset.mem := by
  constructor <;> simp [State.reset]

end Sys2Proof.Machine
end

