-- ==== Sys2Proof/Laws/State.lean ====
section
/-!
SUPPORT. One lemma per field per update of the state, so that no proof unfolds a record update.
-/

namespace Sys2Proof.Machine

variable (s : State)

/-! ### `setReg` -/

@[simp] theorem State.setReg_regs (r : RegId) (v : Word) : (s.setReg r v).regs = s.regs.set r.toNat v r.isLt := rfl
@[simp] theorem State.setReg_pc (r : RegId) (v : Word) : (s.setReg r v).pc = s.pc := rfl
@[simp] theorem State.setReg_cc (r : RegId) (v : Word) : (s.setReg r v).cc = s.cc := rfl
@[simp] theorem State.setReg_status (r : RegId) (v : Word) : (s.setReg r v).status = s.status := rfl
@[simp] theorem State.setReg_mem (r : RegId) (v : Word) : (s.setReg r v).mem = s.mem := rfl
@[simp] theorem State.setReg_kbdSlot (r : RegId) (v : Word) : (s.setReg r v).kbdSlot = s.kbdSlot := rfl
@[simp] theorem State.setReg_out (r : RegId) (v : Word) : (s.setReg r v).out = s.out := rfl
@[simp] theorem State.setReg_reports (r : RegId) (v : Word) : (s.setReg r v).reports = s.reports := rfl
@[simp] theorem State.setReg_keys (r : RegId) (v : Word) : (s.setReg r v).keys = s.keys := rfl
@[simp] theorem State.setReg_draws (r : RegId) (v : Word) : (s.setReg r v).draws = s.draws := rfl
@[simp] theorem State.setReg_walk (r : RegId) (v : Word) : (s.setReg r v).walk = s.walk := rfl

/-! ### `setPc` -/

@[simp] theorem State.setPc_regs (v : Word) : (s.setPc v).regs = s.regs := rfl
@[simp] theorem State.setPc_pc (v : Word) : (s.setPc v).pc = v := rfl
@[simp] theorem State.setPc_cc (v : Word) : (s.setPc v).cc = s.cc := rfl
@[simp] theorem State.setPc_status (v : Word) : (s.setPc v).status = s.status := rfl
@[simp] theorem State.setPc_mem (v : Word) : (s.setPc v).mem = s.mem := rfl
@[simp] theorem State.setPc_kbdSlot (v : Word) : (s.setPc v).kbdSlot = s.kbdSlot := rfl
@[simp] theorem State.setPc_out (v : Word) : (s.setPc v).out = s.out := rfl
@[simp] theorem State.setPc_reports (v : Word) : (s.setPc v).reports = s.reports := rfl
@[simp] theorem State.setPc_keys (v : Word) : (s.setPc v).keys = s.keys := rfl
@[simp] theorem State.setPc_draws (v : Word) : (s.setPc v).draws = s.draws := rfl
@[simp] theorem State.setPc_walk (v : Word) : (s.setPc v).walk = s.walk := rfl

/-! ### `setCc` -/

@[simp] theorem State.setCc_regs (c : CC) : (s.setCc c).regs = s.regs := rfl
@[simp] theorem State.setCc_pc (c : CC) : (s.setCc c).pc = s.pc := rfl
@[simp] theorem State.setCc_cc (c : CC) : (s.setCc c).cc = c := rfl
@[simp] theorem State.setCc_status (c : CC) : (s.setCc c).status = s.status := rfl
@[simp] theorem State.setCc_mem (c : CC) : (s.setCc c).mem = s.mem := rfl
@[simp] theorem State.setCc_kbdSlot (c : CC) : (s.setCc c).kbdSlot = s.kbdSlot := rfl
@[simp] theorem State.setCc_out (c : CC) : (s.setCc c).out = s.out := rfl
@[simp] theorem State.setCc_reports (c : CC) : (s.setCc c).reports = s.reports := rfl
@[simp] theorem State.setCc_keys (c : CC) : (s.setCc c).keys = s.keys := rfl
@[simp] theorem State.setCc_draws (c : CC) : (s.setCc c).draws = s.draws := rfl
@[simp] theorem State.setCc_walk (c : CC) : (s.setCc c).walk = s.walk := rfl

/-! ### `setStatus` -/

@[simp] theorem State.setStatus_regs (x : ExecState) : (s.setStatus x).regs = s.regs := rfl
@[simp] theorem State.setStatus_pc (x : ExecState) : (s.setStatus x).pc = s.pc := rfl
@[simp] theorem State.setStatus_cc (x : ExecState) : (s.setStatus x).cc = s.cc := rfl
@[simp] theorem State.setStatus_status (x : ExecState) : (s.setStatus x).status = x := rfl
@[simp] theorem State.setStatus_mem (x : ExecState) : (s.setStatus x).mem = s.mem := rfl
@[simp] theorem State.setStatus_kbdSlot (x : ExecState) : (s.setStatus x).kbdSlot = s.kbdSlot := rfl
@[simp] theorem State.setStatus_out (x : ExecState) : (s.setStatus x).out = s.out := rfl
@[simp] theorem State.setStatus_reports (x : ExecState) : (s.setStatus x).reports = s.reports := rfl
@[simp] theorem State.setStatus_keys (x : ExecState) : (s.setStatus x).keys = s.keys := rfl
@[simp] theorem State.setStatus_draws (x : ExecState) : (s.setStatus x).draws = s.draws := rfl
@[simp] theorem State.setStatus_walk (x : ExecState) : (s.setStatus x).walk = s.walk := rfl

/-! ### `setSlot` -/

@[simp] theorem State.setSlot_regs (k : Option Byte) : (s.setSlot k).regs = s.regs := rfl
@[simp] theorem State.setSlot_pc (k : Option Byte) : (s.setSlot k).pc = s.pc := rfl
@[simp] theorem State.setSlot_cc (k : Option Byte) : (s.setSlot k).cc = s.cc := rfl
@[simp] theorem State.setSlot_status (k : Option Byte) : (s.setSlot k).status = s.status := rfl
@[simp] theorem State.setSlot_mem (k : Option Byte) : (s.setSlot k).mem = s.mem := rfl
@[simp] theorem State.setSlot_kbdSlot (k : Option Byte) : (s.setSlot k).kbdSlot = k := rfl
@[simp] theorem State.setSlot_out (k : Option Byte) : (s.setSlot k).out = s.out := rfl
@[simp] theorem State.setSlot_reports (k : Option Byte) : (s.setSlot k).reports = s.reports := rfl
@[simp] theorem State.setSlot_keys (k : Option Byte) : (s.setSlot k).keys = s.keys := rfl
@[simp] theorem State.setSlot_draws (k : Option Byte) : (s.setSlot k).draws = s.draws := rfl
@[simp] theorem State.setSlot_walk (k : Option Byte) : (s.setSlot k).walk = s.walk := rfl

/-! ### `setWalk` -/

@[simp] theorem State.setWalk_regs (w : Option Walk) : (s.setWalk w).regs = s.regs := rfl
@[simp] theorem State.setWalk_pc (w : Option Walk) : (s.setWalk w).pc = s.pc := rfl
@[simp] theorem State.setWalk_cc (w : Option Walk) : (s.setWalk w).cc = s.cc := rfl
@[simp] theorem State.setWalk_status (w : Option Walk) : (s.setWalk w).status = s.status := rfl
@[simp] theorem State.setWalk_mem (w : Option Walk) : (s.setWalk w).mem = s.mem := rfl
@[simp] theorem State.setWalk_kbdSlot (w : Option Walk) : (s.setWalk w).kbdSlot = s.kbdSlot := rfl
@[simp] theorem State.setWalk_out (w : Option Walk) : (s.setWalk w).out = s.out := rfl
@[simp] theorem State.setWalk_reports (w : Option Walk) : (s.setWalk w).reports = s.reports := rfl
@[simp] theorem State.setWalk_keys (w : Option Walk) : (s.setWalk w).keys = s.keys := rfl
@[simp] theorem State.setWalk_draws (w : Option Walk) : (s.setWalk w).draws = s.draws := rfl
@[simp] theorem State.setWalk_walk (w : Option Walk) : (s.setWalk w).walk = w := rfl

/-! ### `setCell` -/

@[simp] theorem State.setCell_regs (a v : Word) : (s.setCell a v).regs = s.regs := rfl
@[simp] theorem State.setCell_pc (a v : Word) : (s.setCell a v).pc = s.pc := rfl
@[simp] theorem State.setCell_cc (a v : Word) : (s.setCell a v).cc = s.cc := rfl
@[simp] theorem State.setCell_status (a v : Word) : (s.setCell a v).status = s.status := rfl
@[simp] theorem State.setCell_mem (a v : Word) : (s.setCell a v).mem = Memory.write s.mem a.toNat v := rfl
@[simp] theorem State.setCell_kbdSlot (a v : Word) : (s.setCell a v).kbdSlot = s.kbdSlot := rfl
@[simp] theorem State.setCell_out (a v : Word) : (s.setCell a v).out = s.out := rfl
@[simp] theorem State.setCell_reports (a v : Word) : (s.setCell a v).reports = s.reports := rfl
@[simp] theorem State.setCell_keys (a v : Word) : (s.setCell a v).keys = s.keys := rfl
@[simp] theorem State.setCell_draws (a v : Word) : (s.setCell a v).draws = s.draws := rfl
@[simp] theorem State.setCell_walk (a v : Word) : (s.setCell a v).walk = s.walk := rfl

/-! ### `outChar` -/

@[simp] theorem State.outChar_regs (c : Byte) : (s.outChar c).regs = s.regs := rfl
@[simp] theorem State.outChar_pc (c : Byte) : (s.outChar c).pc = s.pc := rfl
@[simp] theorem State.outChar_cc (c : Byte) : (s.outChar c).cc = s.cc := rfl
@[simp] theorem State.outChar_status (c : Byte) : (s.outChar c).status = s.status := rfl
@[simp] theorem State.outChar_mem (c : Byte) : (s.outChar c).mem = s.mem := rfl
@[simp] theorem State.outChar_kbdSlot (c : Byte) : (s.outChar c).kbdSlot = s.kbdSlot := rfl
@[simp] theorem State.outChar_out (c : Byte) : (s.outChar c).out = s.out ++ [c] := rfl
@[simp] theorem State.outChar_reports (c : Byte) : (s.outChar c).reports = s.reports := rfl
@[simp] theorem State.outChar_keys (c : Byte) : (s.outChar c).keys = s.keys := rfl
@[simp] theorem State.outChar_draws (c : Byte) : (s.outChar c).draws = s.draws := rfl
@[simp] theorem State.outChar_walk (c : Byte) : (s.outChar c).walk = s.walk := rfl

/-! ### `report` -/

@[simp] theorem State.report_regs (r : Report) : (s.report r).regs = s.regs := rfl
@[simp] theorem State.report_pc (r : Report) : (s.report r).pc = s.pc := rfl
@[simp] theorem State.report_cc (r : Report) : (s.report r).cc = s.cc := rfl
@[simp] theorem State.report_status (r : Report) : (s.report r).status = s.status := rfl
@[simp] theorem State.report_mem (r : Report) : (s.report r).mem = s.mem := rfl
@[simp] theorem State.report_kbdSlot (r : Report) : (s.report r).kbdSlot = s.kbdSlot := rfl
@[simp] theorem State.report_out (r : Report) : (s.report r).out = s.out := rfl
@[simp] theorem State.report_reports (r : Report) : (s.report r).reports = s.reports ++ [r] := rfl
@[simp] theorem State.report_keys (r : Report) : (s.report r).keys = s.keys := rfl
@[simp] theorem State.report_draws (r : Report) : (s.report r).draws = s.draws := rfl
@[simp] theorem State.report_walk (r : Report) : (s.report r).walk = s.walk := rfl

/-! ### `arrive` -/

@[simp] theorem State.arrive_regs (k : Option Byte) : (s.arrive k).regs = s.regs := rfl
@[simp] theorem State.arrive_pc (k : Option Byte) : (s.arrive k).pc = s.pc := rfl
@[simp] theorem State.arrive_cc (k : Option Byte) : (s.arrive k).cc = s.cc := rfl
@[simp] theorem State.arrive_status (k : Option Byte) : (s.arrive k).status = s.status := rfl
@[simp] theorem State.arrive_mem (k : Option Byte) : (s.arrive k).mem = s.mem := rfl
@[simp] theorem State.arrive_kbdSlot (k : Option Byte) : (s.arrive k).kbdSlot = slotAfter Config.kbdOverrun s.kbdSlot k := rfl
@[simp] theorem State.arrive_out (k : Option Byte) : (s.arrive k).out = s.out := rfl
@[simp] theorem State.arrive_reports (k : Option Byte) : (s.arrive k).reports = s.reports := rfl
@[simp] theorem State.arrive_keys (k : Option Byte) : (s.arrive k).keys = s.keys := rfl
@[simp] theorem State.arrive_draws (k : Option Byte) : (s.arrive k).draws = s.draws := rfl
@[simp] theorem State.arrive_walk (k : Option Byte) : (s.arrive k).walk = s.walk := rfl

/-! ### `nextDraw` -/

@[simp] theorem State.nextDraw_regs : s.nextDraw.regs = s.regs := rfl
@[simp] theorem State.nextDraw_pc : s.nextDraw.pc = s.pc := rfl
@[simp] theorem State.nextDraw_cc : s.nextDraw.cc = s.cc := rfl
@[simp] theorem State.nextDraw_status : s.nextDraw.status = s.status := rfl
@[simp] theorem State.nextDraw_mem : s.nextDraw.mem = s.mem := rfl
@[simp] theorem State.nextDraw_kbdSlot : s.nextDraw.kbdSlot = s.kbdSlot := rfl
@[simp] theorem State.nextDraw_out : s.nextDraw.out = s.out := rfl
@[simp] theorem State.nextDraw_reports : s.nextDraw.reports = s.reports := rfl
@[simp] theorem State.nextDraw_keys : s.nextDraw.keys = s.keys := rfl
@[simp] theorem State.nextDraw_draws : s.nextDraw.draws = s.draws + 1 := rfl
@[simp] theorem State.nextDraw_walk : s.nextDraw.walk = s.walk := rfl

/-! ### `endlessMove` -/

@[simp] theorem State.endlessMove_regs : s.endlessMove.regs = s.regs := rfl
@[simp] theorem State.endlessMove_pc : s.endlessMove.pc = s.pc := rfl
@[simp] theorem State.endlessMove_cc : s.endlessMove.cc = s.cc := rfl
@[simp] theorem State.endlessMove_status : s.endlessMove.status = s.status := rfl
@[simp] theorem State.endlessMove_mem : s.endlessMove.mem = s.mem := rfl
@[simp] theorem State.endlessMove_kbdSlot : s.endlessMove.kbdSlot =
    slotAfter Config.kbdOverrun s.kbdSlot (some (nonzeroKey (Config.endlessKey s.draws))) := rfl
@[simp] theorem State.endlessMove_out : s.endlessMove.out = s.out := rfl
@[simp] theorem State.endlessMove_reports : s.endlessMove.reports = s.reports := rfl
@[simp] theorem State.endlessMove_keys : s.endlessMove.keys = s.keys := rfl
@[simp] theorem State.endlessMove_draws : s.endlessMove.draws = s.draws + 1 := rfl
@[simp] theorem State.endlessMove_walk : s.endlessMove.walk = s.walk := rfl

/-! ### `producerMove` -/

@[simp] theorem State.producerMove_regs : s.producerMove.regs = s.regs := rfl
@[simp] theorem State.producerMove_pc : s.producerMove.pc = s.pc := rfl
@[simp] theorem State.producerMove_cc : s.producerMove.cc = s.cc := rfl
@[simp] theorem State.producerMove_status : s.producerMove.status = s.status := rfl
@[simp] theorem State.producerMove_mem : s.producerMove.mem = s.mem := rfl
@[simp] theorem State.producerMove_kbdSlot : s.producerMove.kbdSlot = slotAfter Config.kbdOverrun s.kbdSlot s.arrival := rfl
@[simp] theorem State.producerMove_out : s.producerMove.out = s.out := rfl
@[simp] theorem State.producerMove_reports : s.producerMove.reports = s.reports := rfl
@[simp] theorem State.producerMove_keys : s.producerMove.keys = s.keys.tail := rfl
@[simp] theorem State.producerMove_draws : s.producerMove.draws = s.draws + 1 := rfl
@[simp] theorem State.producerMove_walk : s.producerMove.walk = s.walk := rfl

/-! ### `setcc` -/

@[simp] theorem State.setcc_regs (v : Word) : (s.setcc v).regs = s.regs := rfl
@[simp] theorem State.setcc_pc (v : Word) : (s.setcc v).pc = s.pc := rfl
@[simp] theorem State.setcc_cc (v : Word) : (s.setcc v).cc = flagOf v := rfl
@[simp] theorem State.setcc_status (v : Word) : (s.setcc v).status = s.status := rfl
@[simp] theorem State.setcc_mem (v : Word) : (s.setcc v).mem = s.mem := rfl
@[simp] theorem State.setcc_kbdSlot (v : Word) : (s.setcc v).kbdSlot = s.kbdSlot := rfl
@[simp] theorem State.setcc_out (v : Word) : (s.setcc v).out = s.out := rfl
@[simp] theorem State.setcc_reports (v : Word) : (s.setcc v).reports = s.reports := rfl
@[simp] theorem State.setcc_keys (v : Word) : (s.setcc v).keys = s.keys := rfl
@[simp] theorem State.setcc_draws (v : Word) : (s.setcc v).draws = s.draws := rfl
@[simp] theorem State.setcc_walk (v : Word) : (s.setcc v).walk = s.walk := rfl

/-! ### `writeResult` -/

@[simp] theorem State.writeResult_regs (r : RegId) (v : Word) : (s.writeResult r v).regs = s.regs.set r.toNat v r.isLt := rfl
@[simp] theorem State.writeResult_pc (r : RegId) (v : Word) : (s.writeResult r v).pc = s.pc := rfl
@[simp] theorem State.writeResult_cc (r : RegId) (v : Word) : (s.writeResult r v).cc = flagOf v := rfl
@[simp] theorem State.writeResult_status (r : RegId) (v : Word) : (s.writeResult r v).status = s.status := rfl
@[simp] theorem State.writeResult_mem (r : RegId) (v : Word) : (s.writeResult r v).mem = s.mem := rfl
@[simp] theorem State.writeResult_kbdSlot (r : RegId) (v : Word) : (s.writeResult r v).kbdSlot = s.kbdSlot := rfl
@[simp] theorem State.writeResult_out (r : RegId) (v : Word) : (s.writeResult r v).out = s.out := rfl
@[simp] theorem State.writeResult_reports (r : RegId) (v : Word) : (s.writeResult r v).reports = s.reports := rfl
@[simp] theorem State.writeResult_keys (r : RegId) (v : Word) : (s.writeResult r v).keys = s.keys := rfl
@[simp] theorem State.writeResult_draws (r : RegId) (v : Word) : (s.writeResult r v).draws = s.draws := rfl
@[simp] theorem State.writeResult_walk (r : RegId) (v : Word) : (s.writeResult r v).walk = s.walk := rfl

/-! ### `memWrite` -/

@[simp] theorem State.memWrite_regs (a v : Word) : (s.memWrite a v).regs = s.regs := rfl
@[simp] theorem State.memWrite_pc (a v : Word) : (s.memWrite a v).pc = s.pc := rfl
@[simp] theorem State.memWrite_cc (a v : Word) : (s.memWrite a v).cc = s.cc := rfl
@[simp] theorem State.memWrite_status (a v : Word) : (s.memWrite a v).status = s.status := rfl
@[simp] theorem State.memWrite_mem (a v : Word) : (s.memWrite a v).mem = Memory.write s.mem a.toNat v := rfl
@[simp] theorem State.memWrite_kbdSlot (a v : Word) : (s.memWrite a v).kbdSlot = s.kbdSlot := rfl
@[simp] theorem State.memWrite_out (a v : Word) : (s.memWrite a v).out = s.out := rfl
@[simp] theorem State.memWrite_reports (a v : Word) : (s.memWrite a v).reports = s.reports := rfl
@[simp] theorem State.memWrite_keys (a v : Word) : (s.memWrite a v).keys = s.keys := rfl
@[simp] theorem State.memWrite_draws (a v : Word) : (s.memWrite a v).draws = s.draws := rfl
@[simp] theorem State.memWrite_walk (a v : Word) : (s.memWrite a v).walk = s.walk := rfl

/-! ### `readyToFetch` -/

@[simp] theorem State.readyToFetch_regs : s.readyToFetch.regs = s.regs := rfl
@[simp] theorem State.readyToFetch_pc : s.readyToFetch.pc = if s.pc = Config.kbsr then Config.entry else s.pc := rfl
@[simp] theorem State.readyToFetch_cc : s.readyToFetch.cc = s.cc := rfl
@[simp] theorem State.readyToFetch_status : s.readyToFetch.status = .running := rfl
@[simp] theorem State.readyToFetch_mem : s.readyToFetch.mem = s.mem := rfl
@[simp] theorem State.readyToFetch_kbdSlot : s.readyToFetch.kbdSlot = s.kbdSlot := rfl
@[simp] theorem State.readyToFetch_out : s.readyToFetch.out = s.out := rfl
@[simp] theorem State.readyToFetch_reports : s.readyToFetch.reports = s.reports := rfl
@[simp] theorem State.readyToFetch_keys : s.readyToFetch.keys = s.keys := rfl
@[simp] theorem State.readyToFetch_draws : s.readyToFetch.draws = s.draws := rfl
@[simp] theorem State.readyToFetch_walk : s.readyToFetch.walk = none := rfl

/-! ### Reading a register or a cell after an update of another field -/

@[simp] theorem State.cell_setReg (r : RegId) (v : Word) (b : Word) : (s.setReg r v).cell b = s.cell b := rfl
@[simp] theorem State.reg_setPc (v : Word) (q : RegId) : (s.setPc v).reg q = s.reg q := rfl
@[simp] theorem State.cell_setPc (v : Word) (b : Word) : (s.setPc v).cell b = s.cell b := rfl
@[simp] theorem State.reg_setCc (c : CC) (q : RegId) : (s.setCc c).reg q = s.reg q := rfl
@[simp] theorem State.cell_setCc (c : CC) (b : Word) : (s.setCc c).cell b = s.cell b := rfl
@[simp] theorem State.reg_setStatus (x : ExecState) (q : RegId) : (s.setStatus x).reg q = s.reg q := rfl
@[simp] theorem State.cell_setStatus (x : ExecState) (b : Word) : (s.setStatus x).cell b = s.cell b := rfl
@[simp] theorem State.reg_setSlot (k : Option Byte) (q : RegId) : (s.setSlot k).reg q = s.reg q := rfl
@[simp] theorem State.cell_setSlot (k : Option Byte) (b : Word) : (s.setSlot k).cell b = s.cell b := rfl
@[simp] theorem State.reg_setWalk (w : Option Walk) (q : RegId) : (s.setWalk w).reg q = s.reg q := rfl
@[simp] theorem State.cell_setWalk (w : Option Walk) (b : Word) : (s.setWalk w).cell b = s.cell b := rfl
@[simp] theorem State.reg_setCell (a v : Word) (q : RegId) : (s.setCell a v).reg q = s.reg q := rfl
@[simp] theorem State.reg_outChar (c : Byte) (q : RegId) : (s.outChar c).reg q = s.reg q := rfl
@[simp] theorem State.cell_outChar (c : Byte) (b : Word) : (s.outChar c).cell b = s.cell b := rfl
@[simp] theorem State.reg_report (r : Report) (q : RegId) : (s.report r).reg q = s.reg q := rfl
@[simp] theorem State.cell_report (r : Report) (b : Word) : (s.report r).cell b = s.cell b := rfl
@[simp] theorem State.reg_arrive (k : Option Byte) (q : RegId) : (s.arrive k).reg q = s.reg q := rfl
@[simp] theorem State.cell_arrive (k : Option Byte) (b : Word) : (s.arrive k).cell b = s.cell b := rfl
@[simp] theorem State.reg_nextDraw (q : RegId) : s.nextDraw.reg q = s.reg q := rfl
@[simp] theorem State.cell_nextDraw (b : Word) : s.nextDraw.cell b = s.cell b := rfl
@[simp] theorem State.reg_endlessMove (q : RegId) : s.endlessMove.reg q = s.reg q := rfl
@[simp] theorem State.cell_endlessMove (b : Word) : s.endlessMove.cell b = s.cell b := rfl
@[simp] theorem State.reg_producerMove (q : RegId) : s.producerMove.reg q = s.reg q := rfl
@[simp] theorem State.cell_producerMove (b : Word) : s.producerMove.cell b = s.cell b := rfl
@[simp] theorem State.reg_setcc (v : Word) (q : RegId) : (s.setcc v).reg q = s.reg q := rfl
@[simp] theorem State.cell_setcc (v : Word) (b : Word) : (s.setcc v).cell b = s.cell b := rfl
@[simp] theorem State.cell_writeResult (r : RegId) (v : Word) (b : Word) : (s.writeResult r v).cell b = s.cell b := rfl
@[simp] theorem State.reg_memWrite (a v : Word) (q : RegId) : (s.memWrite a v).reg q = s.reg q := rfl
@[simp] theorem State.reg_readyToFetch (q : RegId) : s.readyToFetch.reg q = s.reg q := rfl
@[simp] theorem State.cell_readyToFetch (b : Word) : s.readyToFetch.cell b = s.cell b := rfl

end Sys2Proof.Machine
end

