-- ==== Sys2Proof/Laws/Ops.lean ====
section
/-!
SUPPORT. One lemma for each shared operation over registers, cells, the mailbox and the fetch.
-/

namespace Sys2Proof.Machine

variable (s : State)

/-! ### Registers -/

/-- A read after a write of a register. -/
theorem State.reg_setReg (r : RegId) (v : Word) (q : RegId) :
    (s.setReg r v).reg q = if q = r then v else s.reg q := by
  simp only [State.reg, State.setReg, Vector.getElem_set, BitVec.toNat_inj, eq_comm (a := r)]

@[simp] theorem State.reg_setReg_self (r : RegId) (v : Word) : (s.setReg r v).reg r = v := by
  simp [State.reg_setReg]

theorem State.reg_setReg_ne (v : Word) {r q : RegId} (h : q ≠ r) : (s.setReg r v).reg q = s.reg q := by
  simp [State.reg_setReg, h]

/-- A read after a flag-setting write. -/
theorem State.reg_writeResult (r : RegId) (v : Word) (q : RegId) :
    (s.writeResult r v).reg q = if q = r then v else s.reg q := State.reg_setReg s r v q

/-! ### Cells -/

variable {s}

/-- A read after a store, in a state whose memory is canonical. -/
theorem State.cell_setCell (h : Memory.wf s.mem) (a v b : Word) :
    (s.setCell a v).cell b = if b = a then v else s.cell b := by
  simp only [State.cell, State.setCell, Memory.read_write h, BitVec.toNat_inj]

/-- A store keeps the memory canonical. -/
theorem State.setCell_wf (h : Memory.wf s.mem) (a v : Word) : Memory.wf (s.setCell a v).mem :=
  Memory.write_wf h (Config.word_lt_cells a) v

/-- A store through `MemWrite` keeps the memory canonical. -/
theorem State.memWrite_wf (h : Memory.wf s.mem) (a v : Word) : Memory.wf (s.memWrite a v).mem :=
  State.setCell_wf h a v

/-- The loader keeps the memory canonical. -/
theorem State.load_wf (h : Memory.wf s.mem) (image : Image) : Memory.wf (s.load image).mem := by
  show Memory.wf (image.foldl (fun t c => t.memWrite c.1 c.2) s).mem
  induction image generalizing s with
  | nil => exact h
  | cons c image ih => exact ih (State.memWrite_wf h c.1 c.2)

/-! ### The mailbox and the poll (rule R57) -/

theorem State.kbdConsume_some {k : Byte} (h : s.kbdSlot = some k) :
    s.kbdConsume = some (k, s.setSlot none) := by simp [State.kbdConsume, h]

theorem State.kbdConsume_none (h : s.kbdSlot = none) : s.kbdConsume = none := by
  simp [State.kbdConsume, h]

/-- A poll that finds a key. -/
theorem State.kbdPoll_some {k : Byte} (h : s.kbdSlot = some k) :
    s.kbdPoll = ((s.setSlot none).setCell Config.kbdr (zext8 k)).setCell Config.kbsr 0x8000 := by
  rw [State.kbdPoll, State.kbdConsume_some h]

/-- A poll that finds no key. -/
theorem State.kbdPoll_none (h : s.kbdSlot = none) : s.kbdPoll = s.setCell Config.kbsr 0 := by
  rw [State.kbdPoll, State.kbdConsume_none h]

/-- A poll writes memory and the mailbox, and nothing else. -/
theorem State.kbdPoll_frame : ∃ m k, s.kbdPoll = { s with mem := m, kbdSlot := k } := by
  rcases h : s.kbdSlot with _ | k
  · exact ⟨_, _, State.kbdPoll_none h⟩
  · exact ⟨_, _, State.kbdPoll_some h⟩

/-- A poll keeps the memory canonical. -/
theorem State.kbdPoll_wf (h : Memory.wf s.mem) : Memory.wf s.kbdPoll.mem := by
  rcases hk : s.kbdSlot with _ | k
  · rw [State.kbdPoll_none hk]; exact State.setCell_wf h _ _
  · rw [State.kbdPoll_some hk]
    exact State.setCell_wf (s := (s.setSlot none).setCell _ _) (State.setCell_wf (s := s.setSlot none) h _ _) _ _

/-- A poll empties the mailbox. -/
theorem State.kbdPoll_kbdSlot : s.kbdPoll.kbdSlot = none := by
  rcases h : s.kbdSlot with _ | k
  · rw [State.kbdPoll_none h]; exact h
  · rw [State.kbdPoll_some h]; rfl

/-- The cells after a poll: only the two keyboard cells may differ. -/
theorem State.cell_kbdPoll_ne (hw : Memory.wf s.mem) {a : Word} (h1 : a ≠ Config.kbsr) (h2 : a ≠ Config.kbdr) :
    s.kbdPoll.cell a = s.cell a := by
  rcases h : s.kbdSlot with _ | k
  · rw [State.kbdPoll_none h, State.cell_setCell hw, if_neg h1]
  · rw [State.kbdPoll_some h, State.cell_setCell (State.setCell_wf (s := s.setSlot none) hw _ _), if_neg h1,
      State.cell_setCell (s := s.setSlot none) hw, if_neg h2]
    rfl

/-- What a poll leaves in the status cell. -/
theorem State.cell_kbdPoll_kbsr (hw : Memory.wf s.mem) :
    s.kbdPoll.cell Config.kbsr = if s.kbdSlot.isSome then 0x8000 else 0 := by
  rcases h : s.kbdSlot with _ | k
  · rw [State.kbdPoll_none h, State.cell_setCell hw, if_pos rfl]; rfl
  · rw [State.kbdPoll_some h, State.cell_setCell (State.setCell_wf (s := s.setSlot none) hw _ _), if_pos rfl]; rfl

/-- What a poll leaves in the data cell. -/
theorem State.cell_kbdPoll_kbdr (hw : Memory.wf s.mem) :
    s.kbdPoll.cell Config.kbdr = (s.kbdSlot.map zext8).getD (s.cell Config.kbdr) := by
  have hne : Config.kbdr ≠ Config.kbsr := by decide
  rcases h : s.kbdSlot with _ | k
  · rw [State.kbdPoll_none h, State.cell_setCell hw, if_neg hne]; rfl
  · rw [State.kbdPoll_some h, State.cell_setCell (State.setCell_wf (s := s.setSlot none) hw _ _), if_neg hne,
      State.cell_setCell (s := s.setSlot none) hw, if_pos rfl]
    rfl

/-! ### `MemRead` and the fetch (rules R54, R266) -/

/-- A read of any address but the keyboard status cell changes nothing. -/
theorem State.memRead_of_ne {a : Word} (h : a ≠ Config.kbsr) : s.memRead a = (s.cell a, s) := by
  simp [State.memRead, State.afterRead, h]

/-- A read of the keyboard status cell polls first. -/
theorem State.memRead_kbsr : s.memRead Config.kbsr = (s.kbdPoll.cell Config.kbsr, s.kbdPoll) := by
  simp [State.memRead, State.afterRead]

/-- A read writes memory and the mailbox, and nothing else. -/
theorem State.memRead_frame (a : Word) : ∃ m k, (s.memRead a).2 = { s with mem := m, kbdSlot := k } := by
  by_cases h : a = Config.kbsr
  · rw [h, State.memRead_kbsr]; exact State.kbdPoll_frame
  · rw [State.memRead_of_ne h]; exact ⟨_, _, rfl⟩

/-- A read keeps the memory canonical. -/
theorem State.memRead_wf (h : Memory.wf s.mem) (a : Word) : Memory.wf (s.memRead a).2.mem := by
  by_cases ha : a = Config.kbsr
  · rw [ha, State.memRead_kbsr]; exact State.kbdPoll_wf h
  · rw [State.memRead_of_ne ha]; exact h

/-- The cells after a read: only the two keyboard cells may differ. -/
theorem State.cell_memRead_ne (hw : Memory.wf s.mem) {a b : Word} (h1 : b ≠ Config.kbsr)
    (h2 : b ≠ Config.kbdr) : (s.memRead a).2.cell b = s.cell b := by
  by_cases ha : a = Config.kbsr
  · rw [ha, State.memRead_kbsr]; exact State.cell_kbdPoll_ne hw h1 h2
  · rw [State.memRead_of_ne ha]

/-- A read of the keyboard status cell returns `0x8000` or `0x0000`. -/
theorem State.memRead_kbsr_word (hw : Memory.wf s.mem) :
    (s.memRead Config.kbsr).1 = if s.kbdSlot.isSome then 0x8000 else 0 := by
  rw [State.memRead_kbsr]; exact State.cell_kbdPoll_kbsr hw

@[simp] theorem State.memRead_regs (a : Word) : (s.memRead a).2.regs = s.regs := by
  obtain ⟨m, k, h⟩ := s.memRead_frame a; rw [h]
@[simp] theorem State.memRead_pc (a : Word) : (s.memRead a).2.pc = s.pc := by
  obtain ⟨m, k, h⟩ := s.memRead_frame a; rw [h]
@[simp] theorem State.memRead_cc (a : Word) : (s.memRead a).2.cc = s.cc := by
  obtain ⟨m, k, h⟩ := s.memRead_frame a; rw [h]
@[simp] theorem State.memRead_status (a : Word) : (s.memRead a).2.status = s.status := by
  obtain ⟨m, k, h⟩ := s.memRead_frame a; rw [h]
@[simp] theorem State.memRead_out (a : Word) : (s.memRead a).2.out = s.out := by
  obtain ⟨m, k, h⟩ := s.memRead_frame a; rw [h]
@[simp] theorem State.memRead_reports (a : Word) : (s.memRead a).2.reports = s.reports := by
  obtain ⟨m, k, h⟩ := s.memRead_frame a; rw [h]
@[simp] theorem State.memRead_keys (a : Word) : (s.memRead a).2.keys = s.keys := by
  obtain ⟨m, k, h⟩ := s.memRead_frame a; rw [h]
@[simp] theorem State.memRead_draws (a : Word) : (s.memRead a).2.draws = s.draws := by
  obtain ⟨m, k, h⟩ := s.memRead_frame a; rw [h]
@[simp] theorem State.memRead_walk (a : Word) : (s.memRead a).2.walk = s.walk := by
  obtain ⟨m, k, h⟩ := s.memRead_frame a; rw [h]
@[simp] theorem State.reg_memRead (a : Word) (q : RegId) : (s.memRead a).2.reg q = s.reg q := by
  simp [State.reg]

/-- The fetch: the word at `pc`, and `pc` advanced by one. -/
theorem State.fetch_eq : s.fetch = ((s.memRead s.pc).1, (s.memRead s.pc).2.setPc (s.pc + 1)) := rfl

@[simp] theorem State.fetch_regs : s.fetch.2.regs = s.regs := by simp [State.fetch]
@[simp] theorem State.fetch_pc : s.fetch.2.pc = s.pc + 1 := rfl
@[simp] theorem State.fetch_cc : s.fetch.2.cc = s.cc := by simp [State.fetch]
@[simp] theorem State.fetch_status : s.fetch.2.status = s.status := by simp [State.fetch]
@[simp] theorem State.fetch_out : s.fetch.2.out = s.out := by simp [State.fetch]
@[simp] theorem State.fetch_reports : s.fetch.2.reports = s.reports := by simp [State.fetch]
@[simp] theorem State.fetch_keys : s.fetch.2.keys = s.keys := by simp [State.fetch]
@[simp] theorem State.fetch_draws : s.fetch.2.draws = s.draws := by simp [State.fetch]
@[simp] theorem State.fetch_walk : s.fetch.2.walk = s.walk := by simp [State.fetch]
@[simp] theorem State.reg_fetch (q : RegId) : s.fetch.2.reg q = s.reg q := by simp [State.reg]

/-- The fetch keeps the memory canonical. -/
theorem State.fetch_wf (h : Memory.wf s.mem) : Memory.wf s.fetch.2.mem := State.memRead_wf h s.pc

/-! ### The producer (rules R38, R69) -/

/-- Where the producer does nothing the mailbox is as it was. -/
@[simp] theorem slotAfter_none (p : KbdOverrun) (k : Option Byte) : slotAfter p k none = k := by
  cases k <;> rfl

/-- An empty mailbox is filled by the key that arrives, under either policy. -/
@[simp] theorem slotAfter_empty (p : KbdOverrun) (k : Option Byte) : slotAfter p none k = k := by
  cases k <;> rfl

/-- A full mailbox stays full. -/
theorem slotAfter_isSome (p : KbdOverrun) (old : Byte) (k : Option Byte) :
    (slotAfter p (some old) k).isSome = true := by
  cases k <;> cases p <;> rfl

end Sys2Proof.Machine
end

