-- ==== Sys2Proof/Laws/PerInstr.lean ====
section
/-!
SUPPORT. A law of every instruction as syntax: the top four bits of its word are the opcode that the opcode map
gives it (rules R81, R90).
-/

namespace Sys2Proof.Laws.OpcodeField

/-- The opcode map of rule R90, with the service rows under `TRAP` and the aliases under their instruction. -/
def opcode : Instr → BitVec 4
  | .br .. => 0x0
  | .nop .. => 0x0
  | .addReg .. => 0x1
  | .addImm .. => 0x1
  | .ld .. => 0x2
  | .st .. => 0x3
  | .jsr .. => 0x4
  | .jsrr .. => 0x4
  | .andReg .. => 0x5
  | .andImm .. => 0x5
  | .ldr .. => 0x6
  | .str .. => 0x7
  | .rti .. => 0x8
  | .not .. => 0x9
  | .ldi .. => 0xA
  | .sti .. => 0xB
  | .jmp .. => 0xC
  | .ret => 0xC
  | .res .. => 0xD
  | .lea .. => 0xE
  | .trap .. => 0xF
  | .trapGetc => 0xF
  | .trapOut => 0xF
  | .trapPuts => 0xF
  | .trapIn => 0xF
  | .trapPutsp => 0xF
  | .trapHalt => 0xF
  | .trapUnknown .. => 0xF

/-- The top four bits of the instruction's word are its opcode. -/
def Statement (i : Instr) : Prop := (encode i).extractLsb' 12 4 = opcode i

/-- The top four bits of a word put together from an opcode and twelve more bits. -/
theorem top_of_append (op : BitVec 4) (x : BitVec 12) : (op ++ x).extractLsb' 12 4 = op := by
  ext i hi
  rw [BitVec.getElem_extractLsb', BitVec.getLsbD_append, if_neg (by omega), Nat.add_sub_cancel_left,
    BitVec.getLsbD_eq_getElem hi]

theorem br (n z p : Bool) (off9 : BitVec 9) : Statement (.br n z p off9) := top_of_append _ _
theorem addReg (dr sr1 sr2 : RegId) : Statement (.addReg dr sr1 sr2) := top_of_append _ _
theorem addImm (dr sr1 : RegId) (imm5 : BitVec 5) : Statement (.addImm dr sr1 imm5) := top_of_append _ _
theorem ld (dr : RegId) (off9 : BitVec 9) : Statement (.ld dr off9) := top_of_append _ _
theorem st (sr : RegId) (off9 : BitVec 9) : Statement (.st sr off9) := top_of_append _ _
theorem jsr (off11 : BitVec 11) : Statement (.jsr off11) := top_of_append _ _
theorem jsrr (baseR : RegId) : Statement (.jsrr baseR) := top_of_append _ _
theorem andReg (dr sr1 sr2 : RegId) : Statement (.andReg dr sr1 sr2) := top_of_append _ _
theorem andImm (dr sr1 : RegId) (imm5 : BitVec 5) : Statement (.andImm dr sr1 imm5) := top_of_append _ _
theorem ldr (dr baseR : RegId) (off6 : BitVec 6) : Statement (.ldr dr baseR off6) := top_of_append _ _
theorem str (sr baseR : RegId) (off6 : BitVec 6) : Statement (.str sr baseR off6) := top_of_append _ _
theorem rti (low12 : BitVec 12) : Statement (.rti low12) := top_of_append _ _
theorem not (dr sr : RegId) : Statement (.not dr sr) := top_of_append _ _
theorem ldi (dr : RegId) (off9 : BitVec 9) : Statement (.ldi dr off9) := top_of_append _ _
theorem sti (sr : RegId) (off9 : BitVec 9) : Statement (.sti sr off9) := top_of_append _ _
theorem jmp (baseR : RegId) : Statement (.jmp baseR) := top_of_append _ _
theorem res (low12 : BitVec 12) : Statement (.res low12) := top_of_append _ _
theorem lea (dr : RegId) (off9 : BitVec 9) : Statement (.lea dr off9) := top_of_append _ _
theorem trap (vect8 : Byte) : Statement (.trap vect8) := top_of_append _ _
theorem trapGetc : Statement .trapGetc := top_of_append _ _
theorem trapOut : Statement .trapOut := top_of_append _ _
theorem trapPuts : Statement .trapPuts := top_of_append _ _
theorem trapIn : Statement .trapIn := top_of_append _ _
theorem trapPutsp : Statement .trapPutsp := top_of_append _ _
theorem trapHalt : Statement .trapHalt := top_of_append _ _
theorem trapUnknown (vect8 : Byte) : Statement (.trapUnknown vect8) := top_of_append _ _
theorem ret : Statement .ret := top_of_append _ _
theorem nop (off9 : BitVec 9) : Statement (.nop off9) := top_of_append _ _

end Sys2Proof.Laws.OpcodeField
end

