-- ==== Sys2Proof/Laws/Walk.lean ====
section
/-!
SUPPORT. One lemma for each shared operation of the trap services: what it can change.
-/

namespace Sys2Proof.Machine

variable {s : State}

/-! ### The services that wait for a key (rules R194, R200, R208) -/

/-- `GETC` with a key in the mailbox. -/
theorem State.serviceGetc_some {k : Byte} (h : s.kbdSlot = some k) :
    s.serviceGetc = (s.setSlot none).setReg 0 (zext8 k) := by
  rw [State.serviceGetc, State.kbdConsume_some h]; rfl

/-- `GETC` with an empty mailbox. -/
theorem State.serviceGetc_none (h : s.kbdSlot = none) : s.serviceGetc = s.setPc (s.pc - 1) := by
  rw [State.serviceGetc, State.kbdConsume_none h]; rfl

/-- `IN` with a key in the mailbox. -/
theorem State.serviceIn_some {k : Byte} (h : s.kbdSlot = some k) :
    s.serviceIn = ((s.setSlot none).setReg 0 (zext8 k)).outChar k := by
  rw [State.serviceIn, State.kbdConsume_some h]; rfl

/-- `IN` with an empty mailbox. -/
theorem State.serviceIn_none (h : s.kbdSlot = none) : s.serviceIn = s.setPc (s.pc - 1) := by
  rw [State.serviceIn, State.kbdConsume_none h]; rfl

/-! ### The string services (rules R198, R202, R210) -/

/-- A read of the loop reads a cell and sends characters, and changes nothing else. -/
theorem State.stringCell_frame (kind : StringKind) (a : Word) :
    ∃ m k o, (s.stringCell kind a).2 = { s with mem := m, kbdSlot := k, out := s.out ++ o } := by
  obtain ⟨m, k, h⟩ := s.memRead_frame a
  cases kind
  · simp only [State.stringCell, State.putsCell, h]
    split
    · exact ⟨m, k, [], by simp⟩
    · exact ⟨m, k, _, rfl⟩
  · simp only [State.stringCell, State.putspCell, h]
    split_ifs
    · exact ⟨m, k, [], by simp⟩
    · exact ⟨m, k, _, rfl⟩
    · refine ⟨m, k, [lowByte (s.memRead a).1] ++ [highByte (s.memRead a).1], ?_⟩
      simp only [State.outChar, List.append_assoc]

/-- A read of the loop keeps the memory canonical. -/
theorem State.stringCell_wf (h : Memory.wf s.mem) (kind : StringKind) (a : Word) :
    Memory.wf (s.stringCell kind a).2.mem := by
  have hr := State.memRead_wf h a
  cases kind
  · simp only [State.stringCell, State.putsCell]; split <;> exact hr
  · simp only [State.stringCell, State.putspCell]; split_ifs <;> exact hr

/-- A read of the loop leaves every cell but the two keyboard cells as it was. -/
theorem State.cell_stringCell_ne (h : Memory.wf s.mem) (kind : StringKind) (a : Word) {b : Word}
    (h1 : b ≠ Config.kbsr) (h2 : b ≠ Config.kbdr) : (s.stringCell kind a).2.cell b = s.cell b := by
  have hr := State.cell_memRead_ne h (a := a) h1 h2
  cases kind
  · simp only [State.stringCell, State.putsCell]; split <;> exact hr
  · simp only [State.stringCell, State.putspCell]; split_ifs <;> exact hr

/-- `PUTS` reads the zero word: the loop ends. -/
theorem State.putsCell_stop {a : Word} (h : (s.memRead a).1 = 0) :
    s.stringCell .puts a = (false, (s.memRead a).2) := by
  rw [State.stringCell, State.putsCell, if_pos h]

/-- `PUTS` reads any other word: its low byte is sent and the loop goes on. -/
theorem State.putsCell_send {a : Word} (h : (s.memRead a).1 ≠ 0) :
    s.stringCell .puts a = (true, (s.memRead a).2.outChar (lowByte (s.memRead a).1)) := by
  rw [State.stringCell, State.putsCell, if_neg h]

/-- `PUTSP` reads a zero low byte: the loop ends. -/
theorem State.putspCell_stopLow {a : Word} (h : lowByte (s.memRead a).1 = 0) :
    s.stringCell .putsp a = (false, (s.memRead a).2) := by
  rw [State.stringCell, State.putspCell, if_pos h]

/-- `PUTSP` reads a zero high byte: the low byte is sent and the loop ends. -/
theorem State.putspCell_stopHigh {a : Word} (h : lowByte (s.memRead a).1 ≠ 0) (h' : highByte (s.memRead a).1 = 0) :
    s.stringCell .putsp a = (false, (s.memRead a).2.outChar (lowByte (s.memRead a).1)) := by
  rw [State.stringCell, State.putspCell, if_neg h, if_pos h']

/-- `PUTSP` reads two nonzero bytes: both are sent and the loop goes on. -/
theorem State.putspCell_send {a : Word} (h : lowByte (s.memRead a).1 ≠ 0) (h' : highByte (s.memRead a).1 ≠ 0) :
    s.stringCell .putsp a =
      (true, ((s.memRead a).2.outChar (lowByte (s.memRead a).1)).outChar (highByte (s.memRead a).1)) := by
  rw [State.stringCell, State.putspCell, if_neg h, if_neg h']

/-- A read after which the loop ends. -/
theorem stringWalk_stop {kind : StringKind} {a : Word} {t : State} (h : s.stringCell kind a = (false, t)) (n : Nat) :
    stringWalk kind (n + 1) a s = (false, t) := by rw [stringWalk, h]; rfl

/-- A read after which the loop goes on. -/
theorem stringWalk_go {kind : StringKind} {a : Word} {t : State} (h : s.stringCell kind a = (true, t)) (n : Nat) :
    stringWalk kind (n + 1) a s = stringWalk kind n (a + 1) t := by rw [stringWalk, h]; rfl

/-- Whatever every read of the loop keeps, a walk keeps. -/
theorem stringWalk_ind {P : State → Prop} (kind : StringKind) (h : ∀ t a, P t → P (t.stringCell kind a).2)
    (n : Nat) (a : Word) (hs : P s) : P (stringWalk kind n a s).2 := by
  induction n generalizing a s with
  | zero => exact hs
  | succ n ih =>
    rw [stringWalk]
    split
    · exact ih (a + 1) (h s a hs)
    · exact h s a hs

/-- A walk changes the keyboard cells and the mailbox (where it polls) and sends characters; it changes nothing
else. -/
theorem stringWalk_frame (kind : StringKind) (n : Nat) (a : Word) :
    ∃ m k o, (stringWalk kind n a s).2 = { s with mem := m, kbdSlot := k, out := s.out ++ o } := by
  refine stringWalk_ind (P := fun t => ∃ m k o, t = { s with mem := m, kbdSlot := k, out := s.out ++ o }) kind ?_ n a
    ⟨s.mem, s.kbdSlot, [], by simp⟩
  rintro t a ⟨m, k, o, rfl⟩
  obtain ⟨m', k', o', h⟩ :=
    State.stringCell_frame (s := { s with mem := m, kbdSlot := k, out := s.out ++ o }) kind a
  exact ⟨m', k', o ++ o', by rw [h]; simp⟩

/-- What a turn leaves as it was. -/
theorem State.stringTurn_frame (w : Walk) :
    ∃ m k o, (s.stringTurn w).2 = { s with mem := m, kbdSlot := k, out := s.out ++ o } :=
  stringWalk_frame w.kind _ w.addr

@[simp] theorem State.stringTurn_regs (w : Walk) : (s.stringTurn w).2.regs = s.regs := by
  obtain ⟨m, k, o, h⟩ := s.stringTurn_frame w; rw [h]
@[simp] theorem State.stringTurn_pc (w : Walk) : (s.stringTurn w).2.pc = s.pc := by
  obtain ⟨m, k, o, h⟩ := s.stringTurn_frame w; rw [h]
@[simp] theorem State.stringTurn_cc (w : Walk) : (s.stringTurn w).2.cc = s.cc := by
  obtain ⟨m, k, o, h⟩ := s.stringTurn_frame w; rw [h]
@[simp] theorem State.stringTurn_status (w : Walk) : (s.stringTurn w).2.status = s.status := by
  obtain ⟨m, k, o, h⟩ := s.stringTurn_frame w; rw [h]
@[simp] theorem State.stringTurn_reports (w : Walk) : (s.stringTurn w).2.reports = s.reports := by
  obtain ⟨m, k, o, h⟩ := s.stringTurn_frame w; rw [h]
@[simp] theorem State.stringTurn_keys (w : Walk) : (s.stringTurn w).2.keys = s.keys := by
  obtain ⟨m, k, o, h⟩ := s.stringTurn_frame w; rw [h]
@[simp] theorem State.stringTurn_draws (w : Walk) : (s.stringTurn w).2.draws = s.draws := by
  obtain ⟨m, k, o, h⟩ := s.stringTurn_frame w; rw [h]
@[simp] theorem State.stringTurn_walk (w : Walk) : (s.stringTurn w).2.walk = s.walk := by
  obtain ⟨m, k, o, h⟩ := s.stringTurn_frame w; rw [h]

/-! ### A whole string service (rules R191, R198, R202, R210) -/

/-- A service whose first turn brings a terminator ends there. -/
theorem State.stringService_of_ends {w : Walk} {t : State} (h : s.stringTurn w = (false, t)) :
    s.stringService w = t := by rw [State.stringService, State.serviceTurns, h]; rfl

theorem goOn_ind {P : State → Prop} {r : Bool × State} {next : State → Bool × State} (hr : P r.2)
    (h : ∀ t, P t → P (next t).2) : P (goOn r next).2 := by
  rw [goOn]
  split
  · exact h _ hr
  · exact hr

theorem moreTurns_ind {P : State → Prop} {α : Type} {w : Walk} {move : α → State → State}
    (hmove : ∀ k t, P t → P (move k t)) (hturn : ∀ t, P t → P (t.stringTurn w).2) (ks : List α) (hs : P s) :
    P (moreTurns w move ks s).2 := by
  induction ks generalizing s with
  | nil => exact hs
  | cons k ks ih => exact goOn_ind (hturn _ (hmove k s hs)) fun t ht => ih ht

/-- Whatever every read of the loop keeps, and every change of the mailbox and of the producer's own fields, the
turns of a service keep. -/
theorem State.serviceTurns_ind {P : State → Prop} (w : Walk) (hcell : ∀ t a, P t → P (t.stringCell w.kind a).2)
    (hmove : ∀ t k ks d, P t → P { t with kbdSlot := k, keys := ks, draws := d }) (hs : P s) :
    P (s.serviceTurns w).2 := by
  have hturn : ∀ t, P t → P (t.stringTurn w).2 := fun t ht => stringWalk_ind w.kind hcell _ _ ht
  refine goOn_ind (goOn_ind (hturn s hs) fun t ht => ?_) fun t ht => ?_
  · exact moreTurns_ind (fun _ u hu => hmove u _ _ _ hu) hturn _ ht
  · show P (State.freeTurns t w).2
    rw [State.freeTurns]
    split
    · exact moreTurns_ind (fun _ u hu => hmove u _ _ _ hu) hturn _ (hmove t t.kbdSlot t.keys (t.draws + 1) ht)
    · exact hturn _ (hmove t _ _ _ ht)

/-- A string service changes the keyboard cells, the mailbox, the output and the model's own fields; it changes
nothing else. -/
theorem State.stringService_frame (w : Walk) :
    ∃ m k o ks d v, s.stringService w =
      { s with mem := m, kbdSlot := k, out := s.out ++ o, keys := ks, draws := d, walk := v } := by
  obtain ⟨m, k, o, ks, d, h⟩ := s.serviceTurns_ind (P := fun t => ∃ m k o ks d,
      t = { s with mem := m, kbdSlot := k, out := s.out ++ o, keys := ks, draws := d }) w
    (by
      rintro t a ⟨m, k, o, ks, d, rfl⟩
      obtain ⟨m', k', o', h⟩ := State.stringCell_frame
        (s := { s with mem := m, kbdSlot := k, out := s.out ++ o, keys := ks, draws := d }) w.kind a
      exact ⟨m', k', o ++ o', ks, d, by rw [h]; simp⟩)
    (by rintro t k ks d ⟨m, _, o, _, _, rfl⟩; exact ⟨m, k, o, ks, d, rfl⟩)
    ⟨s.mem, s.kbdSlot, [], s.keys, s.draws, by simp⟩
  rw [State.stringService, leaveService, h]
  split
  · exact ⟨m, k, o, ks, d, some w, rfl⟩
  · exact ⟨m, k, o, ks, d, s.walk, rfl⟩

/-- The memory of a service is that of its turns. -/
theorem leaveService_mem (w : Walk) (r : Bool × State) : (leaveService w r).mem = r.2.mem := by
  rw [leaveService]; split <;> rfl

/-- A string service keeps the memory canonical. -/
theorem State.stringService_wf (h : Memory.wf s.mem) (w : Walk) : Memory.wf (s.stringService w).mem := by
  rw [State.stringService, leaveService_mem]
  exact State.serviceTurns_ind (P := fun t => Memory.wf t.mem) w (fun t a ht => State.stringCell_wf ht w.kind a)
    (fun _ _ _ _ ht => ht) h

/-- A string service leaves every cell but the two keyboard cells as it was. -/
theorem State.cell_stringService_ne (h : Memory.wf s.mem) (w : Walk) {b : Word} (h1 : b ≠ Config.kbsr)
    (h2 : b ≠ Config.kbdr) : (s.stringService w).cell b = s.cell b := by
  have : Memory.wf (s.serviceTurns w).2.mem ∧ (s.serviceTurns w).2.cell b = s.cell b :=
    State.serviceTurns_ind (P := fun t => Memory.wf t.mem ∧ t.cell b = s.cell b) w
      (fun t a ht => ⟨State.stringCell_wf ht.1 w.kind a, (State.cell_stringCell_ne ht.1 w.kind a h1 h2).trans ht.2⟩)
      (fun _ _ _ _ ht => ht) ⟨h, rfl⟩
  rw [State.cell, State.stringService, leaveService_mem]
  exact this.2

end Sys2Proof.Machine
end

