-- ==== Sys2Proof/Laws/Service.lean ====
section
/-!
SUPPORT. When a turn of a string service ends and when it does not (rules R57, R198, R202, R210), and what the
state is where a whole service does not end.
-/

namespace Sys2Proof.Machine

variable {s : State}

/-- A turn of 65536 reads meets every address. -/
theorem turn_meets (a b : Word) : ∃ i < Config.cells, a + BitVec.ofNat 16 i = b := by
  refine ⟨(b - a).toNat, (b - a).isLt, ?_⟩
  rw [BitVec.ofNat_toNat, BitVec.setWidth_eq, BitVec.add_comm, BitVec.sub_add_cancel]

/-- The address of the next read, one read later. -/
theorem add_one_add (a : Word) (i : Nat) : a + 1 + BitVec.ofNat 16 i = a + BitVec.ofNat 16 (i + 1) := by
  rw [BitVec.add_assoc, Nat.add_comm i 1, BitVec.ofNat_add]; rfl

/-- A read of the loop whose walk does not end: the word read, and the walk from the next address. -/
theorem putsWalk_true {n : Nat} {a : Word} (h : (stringWalk .puts (n + 1) a s).1 = true) :
    (s.memRead a).1 ≠ 0 ∧ stringWalk .puts (n + 1) a s =
      stringWalk .puts n (a + 1) ((s.memRead a).2.outChar (lowByte (s.memRead a).1)) := by
  by_cases hz : (s.memRead a).1 = 0
  · rw [stringWalk_stop (State.putsCell_stop hz)] at h; cases h
  · exact ⟨hz, stringWalk_go (State.putsCell_send hz) n⟩

/-- A read leaves a nonzero cell other than the status cell nonzero, unless the key `0x00` waits. -/
theorem State.cell_memRead_ne_zero (hm : Memory.wf s.mem) (hk : ∀ k, s.kbdSlot = some k → k ≠ 0) {a b : Word}
    (hb : b ≠ Config.kbsr) (hc : s.cell b ≠ 0) : (s.memRead a).2.cell b ≠ 0 := by
  by_cases ha : a = Config.kbsr
  · subst ha
    by_cases hd : b = Config.kbdr
    · subst hd
      rw [State.memRead_kbsr]
      show s.kbdPoll.cell Config.kbdr ≠ 0
      rw [State.cell_kbdPoll_kbdr hm]
      rcases h : s.kbdSlot with _ | k
      · exact hc
      · intro e
        refine hk k h (BitVec.eq_of_toNat_eq ?_)
        have e : (zext8 k).toNat = 0 := congrArg BitVec.toNat e
        have := k.isLt
        simp only [zext8, BitVec.toNat_setWidth] at e
        show k.toNat = 0
        omega
    · rw [State.cell_memRead_ne hm hb hd]; exact hc
  · rw [State.memRead_of_ne ha]; exact hc

/-- A read keeps an empty mailbox empty, and a read of the status cell empties it. -/
theorem State.kbdSlot_memRead (a : Word) :
    (s.memRead a).2.kbdSlot = if a = Config.kbsr then none else s.kbdSlot := by
  split
  · next h => rw [h, State.memRead_kbsr]; exact State.kbdPoll_kbdSlot
  · next h => rw [State.memRead_of_ne h]

/-- A read brings no key into the mailbox. -/
theorem State.kbdSlot_memRead_some {a : Word} {k : Byte} (h : (s.memRead a).2.kbdSlot = some k) :
    s.kbdSlot = some k := by
  rw [State.kbdSlot_memRead] at h
  split at h
  · cases h
  · exact h

/-- A walk of `PUTS` that does not end leaves every cell it read nonzero, and every cell that was nonzero, but for
the status cell; unless the key `0x00` waits before it. -/
theorem cell_putsWalk_ne_zero {n : Nat} {a : Word} (hm : Memory.wf s.mem) (hk : ∀ k, s.kbdSlot = some k → k ≠ 0)
    (h : (stringWalk .puts n a s).1 = true) {b : Word} (hb : b ≠ Config.kbsr)
    (hc : s.cell b ≠ 0 ∨ ∃ i < n, a + BitVec.ofNat 16 i = b) : (stringWalk .puts n a s).2.cell b ≠ 0 := by
  induction n generalizing a s with
  | zero => rcases hc with hc | ⟨i, hi, _⟩ <;> [exact hc; omega]
  | succ n ih =>
    obtain ⟨hz, e⟩ := putsWalk_true h
    rw [e] at h ⊢
    refine ih (State.memRead_wf hm a) (fun k hk' => hk k (State.kbdSlot_memRead_some hk')) h ?_
    rcases hc with hc | ⟨i, hi, hib⟩
    · exact .inl (State.cell_memRead_ne_zero hm hk hb hc)
    · rcases i with _ | i
      · have hab : a = b := by simpa using hib
        subst hab
        rw [State.memRead_of_ne hb] at hz
        exact .inl (State.cell_memRead_ne_zero hm hk hb hz)
      · exact .inr ⟨i, by omega, by rw [add_one_add, hib]⟩

/-- A walk of `PUTS` that does not end leaves an empty mailbox where it started with one or polled. -/
theorem kbdSlot_putsWalk {n : Nat} {a : Word} (h : (stringWalk .puts n a s).1 = true)
    (hk : s.kbdSlot = none ∨ ∃ i < n, a + BitVec.ofNat 16 i = Config.kbsr) :
    (stringWalk .puts n a s).2.kbdSlot = none := by
  induction n generalizing a s with
  | zero => rcases hk with hk | ⟨i, hi, _⟩ <;> [exact hk; omega]
  | succ n ih =>
    obtain ⟨_, e⟩ := putsWalk_true h
    rw [e] at h ⊢
    refine ih h ?_
    have hs : (s.memRead a).2.kbdSlot = if a = Config.kbsr then none else s.kbdSlot := State.kbdSlot_memRead a
    rcases hk with hk | ⟨i, hi, hia⟩
    · exact .inl (hs.trans (by rw [hk]; exact ite_self _))
    · rcases i with _ | i
      · exact .inl (hs.trans (if_pos (by simpa using hia)))
      · exact .inr ⟨i, by omega, by rw [add_one_add, hia]⟩

/-- A walk of `PUTS` that does not end sends a character for each read. -/
theorem out_putsWalk {n : Nat} {a : Word} (h : (stringWalk .puts n a s).1 = true) :
    (stringWalk .puts n a s).2.out.length = s.out.length + n := by
  induction n generalizing a s with
  | zero => rfl
  | succ n ih =>
    obtain ⟨_, e⟩ := putsWalk_true h
    rw [e] at h ⊢
    rw [ih h, State.outChar_out, State.memRead_out, List.length_append]
    simp only [List.length_singleton]
    omega

/-- A whole turn of `PUTS` that does not end, from a mailbox without the key `0x00`: no cell but the status cell
is a terminator, and the mailbox is empty. -/
theorem noTerminator_of_turn {a : Word} (hm : Memory.wf s.mem) (hk : ∀ k, s.kbdSlot = some k → k ≠ 0)
    (h : (s.stringTurn ⟨.puts, a⟩).1 = true) :
    NoTerminator (s.stringTurn ⟨.puts, a⟩).2 ∧ (s.stringTurn ⟨.puts, a⟩).2.kbdSlot = none :=
  ⟨⟨stringWalk_ind (P := fun t => Memory.wf t.mem) .puts (fun _ b ht => State.stringCell_wf ht .puts b) _ _ hm,
    fun b hb => cell_putsWalk_ne_zero hm hk h hb (.inr (turn_meets a b))⟩,
    kbdSlot_putsWalk h (.inr (turn_meets a Config.kbsr))⟩

/-- A walk that polls an empty mailbox ends: the word read is `0x0000`. -/
theorem stringWalk_ends {kind : StringKind} {n : Nat} {a : Word} (hm : Memory.wf s.mem) (hk : s.kbdSlot = none)
    (hp : ∃ i < n, a + BitVec.ofNat 16 i = Config.kbsr) : (stringWalk kind n a s).1 = false := by
  induction n generalizing a s with
  | zero => obtain ⟨i, hi, _⟩ := hp; omega
  | succ n ih =>
    obtain ⟨i, hi, hia⟩ := hp
    rcases i with _ | i
    · have ha : a = Config.kbsr := by simpa using hia
      have hz : (s.memRead a).1 = 0 := by rw [ha, State.memRead_kbsr_word hm, hk]; rfl
      cases kind
      · rw [stringWalk_stop (State.putsCell_stop hz)]
      · rw [stringWalk_stop (State.putspCell_stopLow (by rw [hz]; rfl))]
    · rw [stringWalk]
      split
      · refine ih (State.stringCell_wf hm kind a) ?_ ⟨i, by omega, by rw [add_one_add, hia]⟩
        have hs : (s.memRead a).2.kbdSlot = none := by rw [State.kbdSlot_memRead, hk]; exact ite_self _
        cases kind
        · simp only [State.stringCell, State.putsCell]; split <;> exact hs
        · simp only [State.stringCell, State.putspCell]; split_ifs <;> exact hs
      · next h => exact Bool.eq_false_of_not_eq_true h

/-- A walk of `PUTSP` that polls ends: the low byte of the word read is 0. -/
theorem putspWalk_ends {n : Nat} {a : Word} (hm : Memory.wf s.mem)
    (hp : ∃ i < n, a + BitVec.ofNat 16 i = Config.kbsr) : (stringWalk .putsp n a s).1 = false := by
  induction n generalizing a s with
  | zero => obtain ⟨i, hi, _⟩ := hp; omega
  | succ n ih =>
    obtain ⟨i, hi, hia⟩ := hp
    rcases i with _ | i
    · have ha : a = Config.kbsr := by simpa using hia
      have hz : lowByte (s.memRead a).1 = 0 := by rw [ha, State.memRead_kbsr_word hm]; split <;> decide
      rw [stringWalk_stop (State.putspCell_stopLow hz)]
    · rw [stringWalk]
      split
      · exact ih (State.stringCell_wf hm .putsp a) ⟨i, by omega, by rw [add_one_add, hia]⟩
      · next h => exact Bool.eq_false_of_not_eq_true h

/-- A turn from an empty mailbox ends. -/
theorem State.stringTurn_ends (hm : Memory.wf s.mem) (hk : s.kbdSlot = none) (w : Walk) :
    (s.stringTurn w).1 = false := stringWalk_ends hm hk (turn_meets _ _)

/-- `PUTSP` ends in its first turn. -/
theorem State.servicePutsp_eq (hm : Memory.wf s.mem) :
    s.servicePutsp = (s.stringTurn ⟨.putsp, s.reg 0⟩).2 :=
  State.stringService_of_ends (Prod.ext (putspWalk_ends hm (turn_meets _ _)) rfl)

/-- Where nothing can end a walk of `PUTS`, it does not end. -/
theorem putsWalk_goesOn {n : Nat} {a : Word} (hm : Memory.wf s.mem) (hc : ∀ b, b ≠ Config.kbsr → s.cell b ≠ 0)
    (hk : ∀ k, s.kbdSlot = some k → k ≠ 0)
    (hp : ∀ i < n, a + BitVec.ofNat 16 i = Config.kbsr → s.kbdSlot ≠ none) (hn : n ≤ Config.cells) :
    (stringWalk .puts n a s).1 = true := by
  induction n generalizing a s with
  | zero => rfl
  | succ n ih =>
    have hz : (s.memRead a).1 ≠ 0 := by
      by_cases ha : a = Config.kbsr
      · obtain ⟨k, hs⟩ := Option.ne_none_iff_exists'.mp (hp 0 (by omega) (by rw [ha]; rfl))
        rw [ha, State.memRead_kbsr_word hm, hs]
        show (0x8000 : Word) ≠ 0
        decide
      · rw [State.memRead_of_ne ha]; exact hc a ha
    rw [stringWalk_go (State.putsCell_send hz)]
    refine ih (State.memRead_wf hm a) (fun b hb => State.cell_memRead_ne_zero hm hk hb (hc b hb))
      (fun k h => hk k (State.kbdSlot_memRead_some h)) (fun i hi hia => ?_) (by omega)
    show (s.memRead a).2.kbdSlot ≠ none
    rw [State.kbdSlot_memRead, if_neg ?_]
    · exact hp (i + 1) (by omega) (by rw [← add_one_add, hia])
    · rintro rfl
      rw [add_one_add] at hia
      have := congrArg BitVec.toNat hia
      simp only [Config.kbsr, Config.cells, BitVec.toNat_add, BitVec.toNat_ofNat] at this hn
      omega

/-- Where no cell but the status cell is a terminator and a nonzero key waits, a turn of `PUTS` does not end. -/
theorem State.stringTurn_goesOn (h : NoTerminator s) (hk : NonzeroKeyWaits s) (a : Word) :
    (s.stringTurn ⟨.puts, a⟩).1 = true := by
  obtain ⟨k, hs, hk⟩ := hk
  refine putsWalk_goesOn h.1 h.2 (fun k' h' => ?_) (fun _ _ _ => by rw [hs]; simp) le_rfl
  rw [hs] at h'
  cases h'
  exact hk

/-- A turn of a string service that does not end leaves an empty mailbox. -/
theorem State.stringTurn_kbdSlot (hm : Memory.wf s.mem) {w : Walk} (h : (s.stringTurn w).1 = true) :
    (s.stringTurn w).2.kbdSlot = none := by
  obtain ⟨kind, a⟩ := w
  cases kind
  · exact kbdSlot_putsWalk h (.inr (turn_meets a Config.kbsr))
  · rw [State.stringTurn, putspWalk_ends hm (turn_meets _ _)] at h; cases h

/-- A turn of a string service keeps the memory canonical. -/
theorem State.stringTurn_wf (hm : Memory.wf s.mem) (w : Walk) : Memory.wf (s.stringTurn w).2.mem :=
  stringWalk_ind (P := fun t => Memory.wf t.mem) w.kind (fun _ b ht => State.stringCell_wf ht w.kind b) _ _ hm

/-- What a turn that does not end leaves: a canonical memory and an empty mailbox. -/
abbrev TurnLeft (t : State) : Prop := Memory.wf t.mem ∧ t.kbdSlot = none

/-- Where more turns do not end, they leave what a turn that does not end leaves. -/
theorem moreTurns_left {α : Type} {w : Walk} {move : α → State → State}
    (hmove : ∀ k t, Memory.wf t.mem → Memory.wf (move k t).mem) {ks : List α} (hs : TurnLeft s)
    (h : (moreTurns w move ks s).1 = true) : TurnLeft (moreTurns w move ks s).2 := by
  induction ks generalizing s with
  | nil => exact hs
  | cons k ks ih =>
    have hm := hmove k s hs.1
    rw [moreTurns, goOn] at h ⊢
    split at h
    · next hg =>
      rw [if_pos hg]
      exact ih ⟨State.stringTurn_wf hm w, State.stringTurn_kbdSlot hm hg⟩ h
    · contradiction

/-- Turns between which some keys arrive and then none end. -/
theorem moreTurns_ends {w : Walk} (ks : List Byte) (hs : TurnLeft s) :
    (moreTurns w (fun k t => t.arrive k) (ks.map some ++ [none]) s).1 = false := by
  induction ks generalizing s with
  | nil =>
    have hk : (s.arrive none).kbdSlot = none := by rw [State.arrive_kbdSlot, slotAfter_none]; exact hs.2
    have he := State.stringTurn_ends (s := s.arrive none) hs.1 hk w
    show (goOn ((s.arrive none).stringTurn w) _).1 = false
    rw [goOn, he]
    exact he
  | cons k ks ih =>
    show (goOn ((s.arrive (some k)).stringTurn w) _).1 = false
    rw [goOn]
    split
    · next hg =>
      exact ih ⟨State.stringTurn_wf (s := s.arrive (some k)) hs.1 w,
        State.stringTurn_kbdSlot (s := s.arrive (some k)) hs.1 hg⟩
    · next hg => exact Bool.eq_false_of_not_eq_true hg

/-- Where the turns of a service do not end, the free value says that they never do, and the last of them began
with a nonzero key in the mailbox. -/
theorem State.serviceTurns_unfinished (hm : Memory.wf s.mem) {w : Walk} (h : (s.serviceTurns w).1 = true) :
    ∃ u, TurnLeft u ∧ Config.keysInService u.draws = none ∧ s.serviceTurns w = u.endlessMove.stringTurn w := by
  rw [State.serviceTurns, goOn] at h ⊢
  split at h
  · next h1 =>
    rw [if_pos h1]
    have hleft : TurnLeft (goOn (s.stringTurn w) (State.givenTurns · w)).2 := by
      rw [goOn] at h1 ⊢
      split at h1
      · next h0 =>
        rw [if_pos h0]
        exact moreTurns_left (move := fun _ t => t.producerMove) (fun _ _ ht => ht) ⟨State.stringTurn_wf hm w, State.stringTurn_kbdSlot hm h0⟩ h1
      · contradiction
    refine ⟨_, hleft, ?_⟩
    rw [State.freeTurns] at h ⊢
    split at h
    · next ks hks =>
      rw [moreTurns_ends ks (s := State.nextDraw _) hleft] at h
      cases h
    · next hks => exact ⟨hks, rfl⟩
  · contradiction

/-- The key of a service that never ends is not `0x00`. -/
theorem nonzeroKey_ne_zero (n : Fin 255) : nonzeroKey n ≠ 0 := by
  intro h
  have h : (n.val + 1) % 256 = 0 := congrArg BitVec.toNat h
  have := n.isLt
  omega

/-- The endless move puts a nonzero key into an empty mailbox. -/
theorem State.endlessMove_waits (hk : s.kbdSlot = none) : NonzeroKeyWaits s.endlessMove :=
  ⟨_, by rw [State.endlessMove_kbdSlot, hk, slotAfter_empty], nonzeroKey_ne_zero _⟩

/-- Where a `PUTS` is not done in its step, no cell but the status cell is a terminator, and the mailbox is
empty. -/
theorem State.serviceTurns_endless (hm : Memory.wf s.mem) {a : Word} (h : (s.serviceTurns ⟨.puts, a⟩).1 = true) :
    NoTerminator (s.serviceTurns ⟨.puts, a⟩).2 ∧ (s.serviceTurns ⟨.puts, a⟩).2.kbdSlot = none := by
  obtain ⟨u, hu, _, e⟩ := State.serviceTurns_unfinished hm h
  rw [e] at h ⊢
  obtain ⟨k, hk, hk0⟩ := State.endlessMove_waits hu.2
  exact noTerminator_of_turn (s := u.endlessMove) hu.1 (fun k' h' => by rw [hk] at h'; cases h'; exact hk0) h

end Sys2Proof.Machine
end

