-- ==== Sys2Proof/Laws/Step.lean ====
section
/-!
SUPPORT. What a step can be, said once, and where the word of `withFetchWord` is fetched.
-/

namespace Sys2Proof.Machine

variable {s : State}

/-- A core that is not running has no step. -/
theorem step_of_stopped (h : s.status ≠ .running) : step s = .next s := by
  unfold step
  split
  · contradiction
  · rfl

/-- The producer's move after a step of a core in which no string service is in progress. -/
theorem State.keyboardMove_of_none (h : s.walk = none) : s.keyboardMove = s.producerMove := by
  rw [State.keyboardMove, h]

/-- The producer's move during a string service that never ends. -/
theorem State.keyboardMove_of_some {w : Walk} (h : s.walk = some w) : s.keyboardMove = s.endlessMove := by
  rw [State.keyboardMove, h]

/-- The producer's move changes the mailbox and the producer's own fields, and nothing else. -/
theorem State.keyboardMove_frame : ∃ k ks d, s.keyboardMove = { s with kbdSlot := k, keys := ks, draws := d } := by
  rw [State.keyboardMove]
  split
  · exact ⟨_, s.keys, _, rfl⟩
  · exact ⟨_, _, _, rfl⟩

@[simp] theorem State.keyboardMove_regs : s.keyboardMove.regs = s.regs := by
  obtain ⟨k, ks, d, h⟩ := s.keyboardMove_frame; rw [h]
@[simp] theorem State.keyboardMove_pc : s.keyboardMove.pc = s.pc := by
  obtain ⟨k, ks, d, h⟩ := s.keyboardMove_frame; rw [h]
@[simp] theorem State.keyboardMove_cc : s.keyboardMove.cc = s.cc := by
  obtain ⟨k, ks, d, h⟩ := s.keyboardMove_frame; rw [h]
@[simp] theorem State.keyboardMove_status : s.keyboardMove.status = s.status := by
  obtain ⟨k, ks, d, h⟩ := s.keyboardMove_frame; rw [h]
@[simp] theorem State.keyboardMove_mem : s.keyboardMove.mem = s.mem := by
  obtain ⟨k, ks, d, h⟩ := s.keyboardMove_frame; rw [h]
@[simp] theorem State.keyboardMove_out : s.keyboardMove.out = s.out := by
  obtain ⟨k, ks, d, h⟩ := s.keyboardMove_frame; rw [h]
@[simp] theorem State.keyboardMove_reports : s.keyboardMove.reports = s.reports := by
  obtain ⟨k, ks, d, h⟩ := s.keyboardMove_frame; rw [h]
@[simp] theorem State.keyboardMove_walk : s.keyboardMove.walk = s.walk := by
  obtain ⟨k, ks, d, h⟩ := s.keyboardMove_frame; rw [h]

/-- A running core: the core's step, then the producer's move. -/
theorem step_of_running (h : s.status = .running) {t : State} (ht : coreStep s = .next t) :
    step s = .next t.keyboardMove := by
  unfold step
  rw [h, ht]

/-- With no string service in progress the core's step is the fetched instruction's. -/
theorem coreStep_of_fetch (h : s.walk = none) : coreStep s = exec (decode s.fetch.1) s.fetch.2 := by
  rw [coreStep, h]

/-- A string service in progress goes on, and nothing is fetched. -/
theorem coreStep_of_walk {w : Walk} (h : s.walk = some w) : coreStep s = .next (s.resumeWalk w) := by
  rw [coreStep, h]

/-- A key put in for a word that waits changes the mailbox at most. -/
theorem State.withKeyFor_frame (ir : Word) : ∃ k, s.withKeyFor ir = s.setSlot k := by
  unfold State.withKeyFor
  split
  · exact ⟨_, rfl⟩
  · exact ⟨s.kbdSlot, rfl⟩

/-- The word that `withFetchWord` places is the word that the next step fetches. -/
theorem State.fetch_withFetchWord (h : Memory.wf s.mem) (nbits w : Nat) :
    (s.withFetchWord nbits w).fetch.1 = tableWord nbits w := by
  have hpc : s.readyToFetch.pc ≠ Config.kbsr := by
    rw [State.readyToFetch_pc]
    split
    · decide
    · assumption
  obtain ⟨k, hk⟩ := (s.readyToFetch.setCell s.readyToFetch.pc (tableWord nbits w)).withKeyFor_frame
    (tableWord nbits w)
  have hf : s.withFetchWord nbits w = (s.readyToFetch.setCell s.readyToFetch.pc (tableWord nbits w)).setSlot k := hk
  rw [hf, State.fetch_eq]
  show (State.memRead _ s.readyToFetch.pc).1 = _
  rw [State.memRead_of_ne hpc]
  show (s.readyToFetch.setCell s.readyToFetch.pc (tableWord nbits w)).cell s.readyToFetch.pc = _
  rw [State.cell_setCell (s := s.readyToFetch) h, if_pos rfl]

end Sys2Proof.Machine
end

