-- ==== Sys2Proof/Tests/Slice0.lean ====
section
/-!
SUPPORT. Tests of one decode or one step each, their expected results taken from spec/95_test_vectors.md (the
vector's name stands in the comment) or worked out by hand from the rule named, and a witness for every
statement that has hypotheses.
-/

namespace Sys2Proof.Tests

open Sys2Proof.Machine Sys2Proof.Claims

/-! ### Helpers -/

/-- Reset, with some registers and cells written. -/
def st (regs : List (RegId × Word)) (cells : List (Word × Word)) : State :=
  cells.foldl (fun s c => s.setCell c.1 c.2) (regs.foldl (fun s r => s.setReg r.1 r.2) State.reset)

/-- The word at `pc`, one step, and a check of the next state. -/
def run (s : State) (ir : Word) (check : State → Bool) : Bool :=
  match step (s.setCell s.pc ir) with
  | .next t => check t
  | _ => false

/-! ### Well-formedness: a term that each check refuses, and one that it does not -/

theorem test_wf_trap : (Instr.trap 0x30).wellFormed = false := by decide
theorem test_wf_ret : Instr.ret.wellFormed = false := by decide
theorem test_wf_nop : (Instr.nop 0).wellFormed = false := by decide
theorem test_wf_unknown : (Instr.trapUnknown 0x20).wellFormed = false ∧ (Instr.trapUnknown 0x25).wellFormed = false ∧
    (Instr.trapUnknown 0x1F).wellFormed = true ∧ (Instr.trapUnknown 0x26).wellFormed = true := by decide
theorem test_wf_add : (Instr.addReg 7 7 7).wellFormed = true := by decide

/-! ### Decoding: words written out from the encodings of rules R83, R97 and R98 -/

theorem test_decode_br : decode 0b0000101000000010 = .br true false true 2 := by decide
theorem test_decode_addReg : decode 0b0001010000000001 = .addReg 2 0 1 := by decide
theorem test_decode_addReg_ignored : decode 0b0001010000011001 = .addReg 2 0 1 := by decide
theorem test_decode_addImm : decode 0b0001010101111111 = .addImm 2 5 0b11111 := by decide
theorem test_decode_ld : decode 0b0010001000000010 = .ld 1 2 := by decide
theorem test_decode_st : decode 0b0011011000000100 = .st 3 4 := by decide
theorem test_decode_jsr : decode 0b0100110000000000 = .jsr 0b10000000000 := by decide
theorem test_decode_jsrr : decode 0b0100011011111111 = .jsrr 3 := by decide
theorem test_decode_andReg : decode 0b0101011001000010 = .andReg 3 1 2 := by decide
theorem test_decode_andImm : decode 0b0101011001101111 = .andImm 3 1 15 := by decide
theorem test_decode_ldr : decode 0b0110100010111111 = .ldr 4 2 0b111111 := by decide
theorem test_decode_str : decode 0b0111001010000011 = .str 1 2 3 := by decide
theorem test_decode_rti : decode 0b1000111111111111 = .rti 0xFFF := by decide
theorem test_decode_not : decode 0b1001001000000000 = .not 1 0 := by decide
theorem test_decode_ldi : decode 0b1010010111101111 = .ldi 2 0b111101111 := by decide
theorem test_decode_sti : decode 0b1011001000000001 = .sti 1 1 := by decide
theorem test_decode_jmp : decode 0b1100111010111111 = .jmp 2 := by decide
theorem test_decode_res : decode 0b1101101010111100 = .res 0xABC := by decide
theorem test_decode_lea : decode 0b1110101111111111 = .lea 5 0b111111111 := by decide
theorem test_decode_getc : decode 0b1111000000100000 = .trapGetc := by decide
theorem test_decode_out : decode 0b1111000000100001 = .trapOut := by decide
theorem test_decode_puts : decode 0b1111000000100010 = .trapPuts := by decide
theorem test_decode_in : decode 0b1111000000100011 = .trapIn := by decide
theorem test_decode_putsp : decode 0b1111000000100100 = .trapPutsp := by decide
theorem test_decode_halt : decode 0b1111101000100101 = .trapHalt := by decide
theorem test_decode_unknown : decode 0b1111000000100110 = .trapUnknown 0x26 := by decide
/-- The fields of a `TRAP` word before its service is looked up (rule R91). -/
theorem test_decode_trap : decodeFields 0b1111000000100110 = .trap 0x26 := by decide
/-- The aliases' words are `JMP R7` and a `BR` that is never taken (rule R98). -/
theorem test_decode_aliases : decode 0b1100000111000000 = .jmp 7 ∧ decode 0 = .br false false false 0 ∧
    encode .ret = 0xC1C0 ∧ encode (.nop 0) = 0 := by decide
theorem test_table_word : decodeTableWord 16 0xF025 = some .trapHalt ∧ decodeTableWord 32 0xF025 = none := by decide

/-! ### Operate instructions -/

/-- O2. -/
theorem test_add_wraps : run (st [(0, 0x7FFF), (1, 1)] []) 0x1401
    (fun t => t.reg 2 == 0x8000 && t.cc == .neg && t.pc == 0x3001) = true := by decide
/-- O5. -/
theorem test_add_same_register : run (st [(1, 0x4001)] []) 0x1241
    (fun t => t.reg 1 == 0x8002 && t.cc == .neg) = true := by decide
/-- O7. -/
theorem test_addImm : run (st [(3, 0xFFF1)] []) 0x16EF (fun t => t.reg 3 == 0 && t.cc == .zro) = true := by decide
/-- S3. -/
theorem test_addImm_negative : run (st [(5, 5)] []) 0x157F (fun t => t.reg 2 == 4 && t.cc == .pos) = true := by decide
/-- O10. -/
theorem test_andReg : run (st [(1, 0xF0F0), (2, 0xFF00)] []) 0x5642
    (fun t => t.reg 3 == 0xF000 && t.cc == .neg) = true := by decide
/-- O13. -/
theorem test_andImm_sign_extended : run (st [(1, 0xABCD)] []) 0x5670
    (fun t => t.reg 3 == 0xABC0 && t.cc == .neg) = true := by decide
/-- O19. -/
theorem test_not : run (st [(4, 0x00FF)] []) 0x993F (fun t => t.reg 4 == 0xFF00 && t.cc == .neg) = true := by decide

/-! ### Control transfer -/

/-- B1 and B10. -/
theorem test_br : run State.reset 0x0405 (fun t => t.pc == 0x3006) = true ∧
    run (State.reset.setCc .neg) 0x0603 (fun t => t.pc == 0x3001) = true := by decide
/-- B12 and B13: the target wraps both ways. -/
theorem test_br_wraps : run (State.reset.setPc 0xFFFF) 0x0E01 (fun t => t.pc == 0x0001) = true ∧
    run (State.reset.setPc 0) 0x0FFE (fun t => t.pc == 0xFFFF) = true := by decide
/-- B16. -/
theorem test_jmp : run (st [(2, 0xFFFF)] []) 0xCEBF (fun t => t.pc == 0xFFFF) = true := by decide
/-- B18. -/
theorem test_jsr : run State.reset 0x4C00 (fun t => t.pc == 0x2C01 && t.reg 7 == 0x3001) = true := by decide
/-- B22. -/
theorem test_jsrr : run (st [(3, 0x5000)] []) 0x40C0 (fun t => t.pc == 0x5000 && t.reg 7 == 0x3001) = true := by decide
/-- B23. -/
theorem test_jsrr_r7 : run (st [(7, 0x5000)] []) 0x41C0
    (fun t => t.pc == 0x3001 && t.reg 7 == 0x3001) = true := by decide

/-! ### Loads and stores -/

/-- L5. -/
theorem test_ld_wraps : run ((st [] [(0, 0x1234)]).setPc 0xFFFF) 0x2400
    (fun t => t.reg 2 == 0x1234 && t.cc == .pos && t.pc == 0) = true := by decide
/-- L7: the data read polls. -/
theorem test_ldi_polls : run ((st [] [(0x3002, 0xFE00)]).setSlot (some 0x41)) 0xA001
    (fun t => t.reg 0 == 0x8000 && t.cc == .neg && t.cell 0xFE00 == 0x8000 && t.cell 0xFE02 == 0x0041) = true := by
  decide
/-- S4. -/
theorem test_ldi : run ((st [] [(0x3000, 0x3001), (0x3001, 0x002A)]).setPc 0x3010) 0xA5EF
    (fun t => t.reg 2 == 0x002A && t.cc == .pos && t.pc == 0x3011) = true := by decide
/-- L12. -/
theorem test_ldr_wraps : run (st [(2, 0x0010)] [(0xFFF0, 0x7FFF)]) 0x68A0
    (fun t => t.reg 4 == 0x7FFF && t.cc == .pos && t.reg 2 == 0x0010) = true := by decide
/-- L16. -/
theorem test_lea_sets_flags : run (State.reset.setPc 0x7F00) 0xE6FF
    (fun t => t.reg 3 == 0x8000 && t.cc == .neg && t.pc == 0x7F01) = true := by decide
/-- T2: a store over its own word. -/
theorem test_st_own_word : run ((st [(3, 0xCAFE)] []).setCc .pos) 0x37FF
    (fun t => t.cell 0x3000 == 0xCAFE && t.cc == .pos && t.pc == 0x3001) = true := by decide
/-- T6: a store to the status cell is a plain store. -/
theorem test_sti_kbsr : run ((st [(1, 0x1234)] [(0x3002, 0xFE00)]).setSlot (some 0x42)) 0xB201
    (fun t => t.cell 0xFE00 == 0x1234 && t.cell 0xFE02 == 0) = true := by decide
/-- T9. -/
theorem test_str_wraps : run (st [(1, 1)] []) 0x72A0 (fun t => t.cell 0xFFE0 == 1) = true := by decide
/-- A store of zero leaves no entry, so equal memories are equal lists (rules R50, R53). -/
theorem test_canonical : (st [] [(5, 1), (3, 2), (5, 0)]).mem = [(3, 2)] := by decide

/-! ### Trap services -/

/-- X3. -/
theorem test_getc : run ((st [(0, 0xFFFF), (7, 0x1234)] []).setSlot (some 0xE9)) 0xF020
    (fun t => t.reg 0 == 0x00E9 && t.cc == .zro && t.reg 7 == 0x1234 && t.pc == 0x3001) = true := by decide
/-- X4: with no key the core waits at the instruction. -/
theorem test_getc_waits : run (st [(0, 0xFFFF)] []) 0xF020
    (fun t => t.reg 0 == 0xFFFF && t.pc == 0x3000 && t.status == .running) = true := by decide
/-- X10. -/
theorem test_in : run ((st [(0, 0xFFFF)] []).setSlot (some 0x7A)) 0xF023
    (fun t => t.reg 0 == 0x007A && t.out == [0x7A] && t.cc == .zro) = true := by decide
/-- X5. -/
theorem test_out : run (st [(0, 0x1248)] []) 0xF021 (fun t => t.out == [0x48] && t.reg 0 == 0x1248) = true := by decide
/-- X8. -/
theorem test_puts : run (st [(0, 0x4000)] [(0x4000, 0x0141), (0x4001, 0x0100), (0x4002, 0x0042)]) 0xF022
    (fun t => t.out == [0x41, 0x00, 0x42] && t.walk == none) = true := by decide
/-- X9: the walk wraps. -/
theorem test_puts_wraps : run (st [(0, 0xFFFF)] [(0xFFFF, 0x41), (0, 0x42)]) 0xF022
    (fun t => t.out == [0x41, 0x42]) = true := by decide
/-- X11. -/
theorem test_putsp : run (st [(0, 0x4000)] [(0x4000, 0x4B4F), (0x4001, 0x0021)]) 0xF024
    (fun t => t.out == [0x4F, 0x4B, 0x21]) = true := by decide
/-- X13: a zero low byte stops at once. -/
theorem test_putsp_low_byte : run (st [(0, 0x4000)] [(0x4000, 0x4100), (0x4001, 0x4242)]) 0xF024
    (fun t => t.out == []) = true := by decide
/-- X16. -/
theorem test_halt : run State.reset 0xFA25 (fun t => t.status == .halted && t.pc == 0x3001) = true := by decide
/-- X18 and X21. -/
theorem test_unknown_vector : run State.reset 0xF026
    (fun t => t.reports == [.unrecognizedTrapVector 0x26 0x3000] && t.status == .running && t.pc == 0x3001) = true ∧
    run State.reset 0xF01F (fun t => t.reports == [.unrecognizedTrapVector 0x1F 0x3000]) = true := by decide
/-- `TRAP` as one instruction (rule R190). -/
theorem test_trap_dispatch : exec (.trap 0x25) State.reset = .next (State.reset.setStatus .halted) ∧
    exec (.trap 0x26) State.reset = exec (.trapUnknown 0x26) State.reset := ⟨rfl, rfl⟩
/-- A string service in progress goes on without a fetch (rule R210). -/
theorem test_walk_goes_on : run ((st [] [(0x4000, 0x41)]).setWalk (some ⟨.puts, 0x4000⟩)) 0xF025
    (fun t => t.out == [0x41] && t.walk == none && t.pc == 0x3000 && t.status == .running) = true := by decide

/-! ### Reserved opcodes, the fetch, aliases -/

/-- V2. -/
theorem test_rti : run State.reset 0x8FFF
    (fun t => t.status == .faulted (.unimplementedOpcode 8 0x8FFF 0x3000) && t.pc == 0x3001) = true := by decide
/-- V4. -/
theorem test_res : run (State.reset.setCc .pos) 0xDABC
    (fun t => t.status == .faulted (.unimplementedOpcode 13 0xDABC 0x3000) && t.pc == 0x3001 && t.cc == .pos) = true := by
  decide
/-- V5: a fetch from the status cell polls, and the word it returns with a key waiting is an `RTI`. -/
theorem test_fetch_polls : run ((State.reset.setPc 0xFE00).setSlot (some 0x41)) 0xF025
    (fun t => t.status == .faulted (.unimplementedOpcode 8 0x8000 0xFE00) && t.pc == 0xFE01 &&
      t.cell 0xFE02 == 0x0041) = true := by decide
/-- V6: with no key the word fetched from the status cell is `0x0000`. -/
theorem test_fetch_no_key : run (State.reset.setPc 0xFE00) 0xF025
    (fun t => t.status == .running && t.pc == 0xFE01 && t.cell 0xFE00 == 0) = true := by decide
/-- The aliases (rule R98; B15, B7). -/
theorem test_aliases : exec .ret (st [(7, 0x3005)] []) = .next ((st [(7, 0x3005)] []).setPc 0x3005) ∧
    exec (.nop 0x1FF) State.reset = .next State.reset := ⟨rfl, rfl⟩
/-- A core that has halted does nothing (rule R267, S6). -/
theorem test_frozen : step (State.reset.setStatus .halted) = .next (State.reset.setStatus .halted) := rfl
/-- The four conditions of rule R250. -/
theorem test_conditions : condition State.reset = .running ∧ condition (st [] [(0x3000, 0xF023)]) = .waitingForKey ∧
    condition (State.reset.setStatus .halted) = .halted := by decide
/-- The host's placement of a word: the next step runs a `GETC` too (log entry 5). -/
theorem test_withFetchWord : (match step (State.reset.withFetchWord 16 0xF020) with
    | .next t => t.pc == 0x3001
    | _ => false) = true := by decide

/-! ### A program comes to run: the loader, and keys given in advance -/

/-- The image in memory and `pc` at the entry point (rule R262). -/
theorem test_load : (State.reset.load [(0x3000, 0xF025), (0x4000, 7)]).cell 0x4000 = 7 ∧
    (State.start [(0x3000, 0xF025)]).pc = 0x3000 := by decide
/-- A given key is in the mailbox after the step (rule R69). -/
theorem test_given_key : run { State.reset with keys := [some 0x61] } 0
    (fun t => t.kbdSlot == some 0x61 && t.keys == []) = true := by decide

/-! ### Witnesses: a state and operands that meet the hypotheses of each statement -/

/-- A state with a canonical memory, a key waiting, and text at `0x4000`. -/
def sample : State := (st [(0, 0x4000)] [(0x4000, 0x004F), (0x4001, 0x004B)]).setSlot (some 0x61)

theorem sample_wf : Memory.wf sample.mem := by decide

theorem witness_ResetAndLoadedState : ∃ image : Image, ∃ s, s = State.reset.load image ∧ s ≠ State.reset :=
  ⟨[(0x3000, 0xF025)], _, rfl, by decide⟩

theorem witness_ReadHasOneSideEffect : (0xFDFF : Word) ≠ 0xFE00 ∧ (0xFE01 : Word) ≠ 0xFE00 ∧
    (0xFE00 : Word) = 0xFE00 := by decide

theorem witness_WriteIsADirectStore : Memory.wf sample.mem := sample_wf

theorem witness_PollMovesTheKey : (Memory.wf sample.mem ∧ sample.kbdSlot = some 0x61) ∧
    (Memory.wf (sample.setSlot none).mem ∧ (sample.setSlot none).kbdSlot = none) ∧
    (0xFE01 : Word) ≠ 0xFE00 ∧ (0xFE01 : Word) ≠ 0xFE02 := by decide

theorem witness_KeyReportedByOneRead : Memory.wf sample.mem ∧ sample.kbdSlot = some 0x61 := by decide

theorem witness_ProducerFillsTheMailbox : State.reset.kbdSlot = none ∧ sample.kbdSlot ≠ none := by decide

/-- A word that each instruction's rule selects, at an end of the range of its fields. -/
theorem witness_AddRegister : op4 0x1FDF = 0b0001 ∧ (0x1FDF : Word).getLsbD 5 = false := by decide
theorem witness_AddImmediate : op4 0x1FFF = 0b0001 ∧ (0x1FFF : Word).getLsbD 5 = true := by decide
theorem witness_AndRegister : op4 0x5000 = 0b0101 ∧ (0x5000 : Word).getLsbD 5 = false := by decide
theorem witness_AndImmediate : op4 0x5020 = 0b0101 ∧ (0x5020 : Word).getLsbD 5 = true := by decide
theorem witness_NotComplements : op4 0x9FFF = 0b1001 := by decide
theorem witness_BranchOnRequestedFlag : op4 0x0FFF = 0b0000 := by decide
theorem witness_JumpThroughRegister : op4 0xCFFF = 0b1100 := by decide
theorem witness_CallRelative : op4 0x4FFF = 0b0100 ∧ (0x4FFF : Word).getLsbD 11 = true := by decide
theorem witness_CallThroughRegister : op4 0x47FF = 0b0100 ∧ (0x47FF : Word).getLsbD 11 = false := by decide
theorem witness_LoadRelative : op4 0x2FFF = 0b0010 ∧ State.reset.pc + sext (3 : BitVec 9) ≠ 0xFE00 := by decide
theorem witness_LoadBaseOffset : op4 0x6FFF = 0b0110 ∧ State.reset.reg 1 + sext (3 : BitVec 6) ≠ 0xFE00 := by decide
theorem witness_LoadEffectiveAddress : op4 0xEFFF = 0b1110 := by decide
theorem witness_OutSendsTheLowByte : op4 0xFF21 = 0b1111 ∧ (0xFF21 : Word).extractLsb' 0 8 = 0x21 := by decide
theorem witness_HaltStops : op4 0xFF25 = 0b1111 ∧ (0xFF25 : Word).extractLsb' 0 8 = 0x25 := by decide

theorem witness_LoadIndirect : op4 0xAFFF = 0b1010 ∧
    ∃ p u, State.reset.memRead (State.reset.pc + sext (3 : BitVec 9)) = (p, u) ∧ p ≠ 0xFE00 :=
  ⟨by decide, _, _, rfl, by decide⟩

theorem witness_StoreRelative : op4 0x3FFF = 0b0011 ∧ Memory.wf sample.mem := ⟨by decide, sample_wf⟩

theorem witness_StoreIndirect : op4 0xBFFF = 0b1011 ∧ Memory.wf sample.mem ∧
    ∃ p u, sample.memRead (sample.pc + sext (3 : BitVec 9)) = (p, u) := ⟨by decide, sample_wf, _, _, rfl⟩

theorem witness_StoreBaseOffset : op4 0x7FFF = 0b0111 ∧ Memory.wf sample.mem := ⟨by decide, sample_wf⟩

theorem witness_GetcTakesTheKey : (op4 0xFF20 = 0b1111 ∧ (0xFF20 : Word).extractLsb' 0 8 = 0x20) ∧
    sample.kbdSlot = some 0x61 ∧ State.reset.kbdSlot = none := by decide

theorem witness_InEchoesTheKey : (op4 0xFF23 = 0b1111 ∧ (0xFF23 : Word).extractLsb' 0 8 = 0x23) ∧
    sample.kbdSlot = some 0x61 ∧ State.reset.kbdSlot = none := by decide

/-- The three reads of the string at `0x4000` (S5). -/
theorem putsRun_sample : PutsRun 3 sample 0x4000 ((sample.outChar 0x4F).outChar 0x4B) :=
  .send _ _ _ _ (by decide) (.send _ _ _ _ (by decide) (.stop _ _ (by decide)))

theorem witness_PutsIsItsLoop : (op4 0xF022 = 0b1111 ∧ (0xF022 : Word).extractLsb' 0 8 = 0x22) ∧
    3 ≤ 65536 ∧ sample.reg 0 = 0x4000 ∧ ∃ t, PutsRun 3 sample (sample.reg 0) t :=
  ⟨by decide, by decide, rfl, _, putsRun_sample⟩

theorem witness_PutsSendsTheString : ([0x004F, 0x004B] : List Word).length < 65536 ∧
    (∀ k (h : k < ([0x004F, 0x004B] : List Word).length),
      sample.cell (sample.reg 0 + BitVec.ofNat 16 k) = ([0x004F, 0x004B] : List Word)[k] ∧
        ([0x004F, 0x004B] : List Word)[k] ≠ 0) ∧
    sample.cell (sample.reg 0 + BitVec.ofNat 16 ([0x004F, 0x004B] : List Word).length) = 0 ∧
    (∀ k, k ≤ ([0x004F, 0x004B] : List Word).length → sample.reg 0 + BitVec.ofNat 16 k ≠ 0xFE00) := by
  refine ⟨by decide, by decide, by decide, fun k h => ?_⟩
  have hk : k = 0 ∨ k = 1 ∨ k = 2 := by simp at h; omega
  rcases hk with rfl | rfl | rfl <;> decide

/-- `PUTSP` stopped by a low byte, and by a high byte (X13, X11). -/
theorem witness_PutspIsItsLoop : (op4 0xF024 = 0b1111 ∧ (0xF024 : Word).extractLsb' 0 8 = 0x24) ∧
    (Memory.wf (st [(0, 0x4000)] [(0x4000, 0x4100)]).mem ∧
      ∃ t, PutspRun 1 (st [(0, 0x4000)] [(0x4000, 0x4100)]) 0x4000 t) ∧
    (Memory.wf (st [(0, 0x4000)] [(0x4000, 0x4B4F), (0x4001, 0x0021)]).mem ∧
      ∃ t, PutspRun 2 (st [(0, 0x4000)] [(0x4000, 0x4B4F), (0x4001, 0x0021)]) 0x4000 t) :=
  ⟨by decide, ⟨by decide, _, .stopLow _ _ (by decide)⟩,
    by decide, _, .send _ _ _ _ (by decide) (by decide) (.stopHigh _ _ (by decide) (by decide))⟩

theorem witness_PutspAlwaysEnds : Memory.wf sample.mem ∧ sample.walk = none := ⟨sample_wf, rfl⟩

/-- A memory with no zero cell. -/
def fullMemory : Memory := (List.range' 0 65536).map fun a => (a, 0x0041)

theorem fullMemory_read : ∀ (n start a : Nat), start ≤ a → a < start + n →
    Memory.read ((List.range' start n).map fun a => (a, (0x0041 : Word))) a = 0x0041
  | 0, start, a, h1, h2 => by omega
  | n + 1, start, a, h1, h2 => by
    rw [List.range'_succ, List.map_cons, Memory.read_cons]
    by_cases h : start = a
    · rw [if_pos h]
    · rw [if_neg h]
      exact fullMemory_read n (start + 1) a (by omega) (by omega)

theorem fullMemory_wf : Memory.wf fullMemory := by
  refine ⟨List.pairwise_map.mpr List.pairwise_lt_range', fun c hc => ?_⟩
  obtain ⟨a, ha, rfl⟩ := List.mem_map.mp hc
  have := List.mem_range'.mp ha
  exact ⟨by simp only [Config.cells]; omega, by show (0x0041 : Word) ≠ 0; decide⟩

/-- The sample with no zero cell. -/
def fullSample : State := { sample with mem := fullMemory }

theorem fullSample_noTerminator : NoTerminator fullSample ∧ NonzeroKeyWaits fullSample := by
  refine ⟨⟨fullMemory_wf, fun a _ => ?_⟩, 0x61, rfl, by decide⟩
  have h : fullSample.cell a = 0x0041 := fullMemory_read 65536 0 a.toNat (by omega) (by have := a.isLt; omega)
  rw [h]
  decide

theorem witness_PutsWithoutTerminatorGoesOn :
    (Memory.wf sample.mem ∧ sample.walk = none ∧ sample.status = .running) ∧
    Endless (fullSample.setWalk (some ⟨.puts, 0xFFFF⟩)) 0xFFFF ∧
    (NoTerminator fullSample ∧ NonzeroKeyWaits fullSample ∧ fullSample.walk = none ∧ fullSample.keys = []) ∧
    (∃ t, (sample.setWalk (some ⟨.puts, 0x4000⟩)).status = .running ∧
      (sample.setWalk (some ⟨.puts, 0x4000⟩)).walk = some ⟨.puts, 0x4000⟩ ∧ 3 ≤ 65536 ∧
      PutsRun 3 ((sample.setWalk (some ⟨.puts, 0x4000⟩)).setWalk none) 0x4000 t) :=
  ⟨⟨sample_wf, rfl, rfl⟩, ⟨rfl, rfl, fullSample_noTerminator⟩, ⟨fullSample_noTerminator.1, fullSample_noTerminator.2, rfl, rfl⟩,
    _, rfl, rfl, by decide, putsRun_sample⟩

/-- A walk that does not end, as the reads of the loop. -/
theorem putsTurn_of_walk : ∀ (n : Nat) (s : State) (a : Word), (stringWalk .puts n a s).1 = true →
    PutsTurn n s a (stringWalk .puts n a s).2
  | 0, s, a, _ => .none s a
  | n + 1, s, a, h => by
    obtain ⟨hz, e⟩ := putsWalk_true h
    rw [e] at h ⊢
    exact .send n s a _ hz (putsTurn_of_walk n _ _ h)

/-- A walk that ends, as the reads of the loop. -/
theorem putsRun_of_walk : ∀ (n : Nat) (s : State) (a : Word), (stringWalk .puts n a s).1 = false →
    ∃ m ≤ n, PutsRun m s a (stringWalk .puts n a s).2
  | 0, s, a, h => by cases h
  | n + 1, s, a, h => by
    by_cases hz : (s.memRead a).1 = 0
    · rw [stringWalk_stop (State.putsCell_stop hz)]
      exact ⟨1, by omega, .stop s a hz⟩
    · rw [stringWalk_go (State.putsCell_send hz)] at h ⊢
      obtain ⟨m, hm, hr⟩ := putsRun_of_walk n _ _ h
      exact ⟨m + 1, by omega, .send m s a _ hz hr⟩

/-- A `PUTS` that the second turn ends: every other cell nonzero, a nonzero key at the first read of `0xFE00`, no
key at the second. -/
theorem putsService_second_turn (s : State) (a : Word) (ks : List (Option Byte)) (hn : NoTerminator s)
    (hk : NonzeroKeyWaits s) (hs : s.keys = none :: ks) : ∃ t, PutsService s a t := by
  have hg := State.stringTurn_goesOn hn hk a
  have hkeys : (s.stringTurn ⟨.puts, a⟩).2.keys = none :: ks := (State.stringTurn_keys _).trans hs
  have hslot : (s.stringTurn ⟨.puts, a⟩).2.producerMove.kbdSlot = none := by
    rw [State.producerMove_kbdSlot, State.stringTurn_kbdSlot hn.1 hg, slotAfter_empty, State.arrival, hkeys]
  have he := State.stringTurn_ends (s := (s.stringTurn ⟨.puts, a⟩).2.producerMove)
    (State.stringTurn_wf hn.1 ⟨.puts, a⟩) hslot ⟨.puts, a⟩
  obtain ⟨l, hl, hr⟩ := putsRun_of_walk Config.cells _ a he
  exact ⟨_, .turn _ _ _ _ (putsTurn_of_walk Config.cells s a hg) (by
    show (s.stringTurn ⟨.puts, a⟩).2.keys ≠ []
    rw [hkeys]
    exact List.cons_ne_nil _ _) (.last l _ _ _ hl hr)⟩

theorem witness_PutsIsOneStep :
    (∃ t, PutsService { fullSample with keys := [none] } (fullSample.reg 0) t) ∧
    (∃ t, exec .trapPuts sample = .next t ∧ Memory.wf sample.mem ∧ sample.walk = none ∧ t.walk = none) :=
  ⟨putsService_second_turn _ _ [] fullSample_noTerminator.1 fullSample_noTerminator.2 rfl,
    (sample.outChar 0x4F).outChar 0x4B,
    congrArg Host.Outcome.next (State.stringService_of_ends (w := ⟨.puts, sample.reg 0⟩) rfl), sample_wf, rfl, rfl⟩

theorem witness_UnknownVectorIsReported : (op4 0xF01F = 0b1111 ∧ (0xF01F : Word).extractLsb' 0 8 = 0x1F) ∧
    ((0x1F : Byte).toNat < 0x20 ∧ 0x25 < (0x26 : Byte).toNat) ∧
    ((0x00 : Byte).toNat < 0x20 ∧ 0x25 < (0xFF : Byte).toNat) := by decide

theorem witness_TrapDispatchesOnTheVector : (op4 0xFF25 = 0b1111 ∧ (0xFF25 : Word).extractLsb' 0 8 = 0x25) ∧
    ((0x1F : Byte).toNat < 0x20 ∧ 0x25 < (0x26 : Byte).toNat) ∧
    ∀ v ∈ ([0x20, 0x21, 0x22, 0x23, 0x24, 0x25] : List Byte), ¬ (v.toNat < 0x20 ∨ 0x25 < v.toNat) := by decide

theorem witness_HoldChangesNothing : Holds (st [] [(0x3000, 0xF020)]) ∧ Holds (st [] [(0x3000, 0xF523)]) := by decide

theorem witness_KeyLiftsTheHold :
    (Holds { st [] [(0x3000, 0xF020)] with keys := [some 0x61] } ∧
      State.arrival { st [] [(0x3000, 0xF020)] with keys := [some 0x61] } = some 0x61) ∧
    (Holds { st [] [(0x3000, 0xF023)] with keys := [some 0xFF] } ∧
      State.arrival { st [] [(0x3000, 0xF023)] with keys := [some 0xFF] } = some 0xFF) := by decide

theorem witness_RtiFaults : op4 0x8000 = 0b1000 ∧ op4 0x8FFF = 0b1000 := by decide

theorem witness_ResFaults : op4 0xD000 = 0b1101 ∧ op4 0xDFFF = 0b1101 := by decide

theorem witness_StoppedCoreIsFrozen : (State.reset.setStatus .halted).status ≠ .running ∧
    (State.reset.setStatus (.faulted (.unimplementedOpcode 8 0x8000 0x3000))).status ≠ .running := by decide

theorem witness_StatusTransitions :
    (∃ t, step (st [] [(0x3000, 0xF025)]) = .next t ∧ t.status ≠ (st [] [(0x3000, 0xF025)]).status) ∧
    (∃ t, step (st [] [(0x3000, 0x8000)]) = .next t ∧ t.status ≠ (st [] [(0x3000, 0x8000)]).status) ∧
    (∃ t, step (st [] [(0x3000, 0xDFFF)]) = .next t ∧ t.status ≠ (st [] [(0x3000, 0xDFFF)]).status) ∧
    (st [] [(0x3000, 0xF025)]).status = .running ∧ (st [] [(0x3000, 0xF025)]).walk = none ∧
    decode (st [] [(0x3000, 0xF025)]).fetch.1 = .trapHalt ∧
    (st [] [(0x3000, 0x8000)]).status = .running ∧ (st [] [(0x3000, 0x8000)]).walk = none ∧
    op4 (st [] [(0x3000, 0x8000)]).fetch.1 = 0b1000 :=
  ⟨⟨_, rfl, by decide⟩, ⟨_, rfl, by decide⟩, ⟨_, rfl, by decide⟩, rfl, rfl, by decide, rfl, rfl, by decide⟩

theorem witness_FlagWriters : (∃ t, exec (.jmp 3) sample = .next t ∧ setsFlags (.jmp 3) = false) ∧
    (∃ t, exec (.lea 3 1) sample = .next t ∧ setsFlags (.lea 3 1) = true) := ⟨⟨_, rfl, rfl⟩, ⟨_, rfl, rfl⟩⟩

theorem witness_FlagReaders : (∀ n z p off9, Instr.lea 3 1 ≠ .br n z p off9) ∧
    (∃ t, exec (.lea 3 1) sample = .next t) := ⟨fun _ _ _ _ => by simp, _, rfl⟩

theorem witness_RegisterWriters : (∃ t, exec (.jsrr 2) sample = .next t) ∧ writesReg (.jsrr 2) ≠ some 2 :=
  ⟨⟨_, rfl⟩, by decide⟩

theorem witness_MemoryWriters : Memory.wf sample.mem ∧ (∃ t, exec (.sti 1 1) sample = .next t) ∧
    storesTo sample (.sti 1 1) ≠ some 0xFE01 ∧
    (readsMemory (.sti 1 1) = true → (0xFE01 : Word) ≠ 0xFE00 ∧ (0xFE01 : Word) ≠ 0xFE02) :=
  ⟨sample_wf, ⟨_, rfl⟩, by decide, by decide⟩

theorem witness_CounterAdvances :
    (∃ t, Memory.wf sample.mem ∧ sample.status = .running ∧ sample.walk = none ∧
      step (sample.setCell 0x3000 0x1401) = .next t ∧
      transfersControl (decode (sample.setCell 0x3000 0x1401).fetch.1) = false) ∧
    (∃ t, Holds (st [] [(0x3000, 0xF020)]) ∧ step (st [] [(0x3000, 0xF020)]) = .next t ∧ t.pc = 0x3000) :=
  ⟨⟨_, sample_wf, rfl, rfl, rfl, by decide⟩, ⟨_, by decide, rfl, by decide⟩⟩

/-- A state that runs, with no string service in progress, whose next fetch is not from the status cell. -/
def StoreReady (s : State) : Prop :=
  Memory.wf s.mem ∧ s.status = .running ∧ s.walk = none ∧ s.pc + 1 ≠ 0xFE00

/-- `ST R3` with offset 0, `STI R3` through a pointer to the next word, `STR R3,R2,#-32` with its base 32 above. -/
theorem witness_StoreSeenByNextFetch :
    (StoreReady (st [(3, 0x1261)] [(0x3000, 0x3600)]) ∧
      decode (st [(3, 0x1261)] [(0x3000, 0x3600)]).fetch.1 = .st 3 0 ∧
      (st [(3, 0x1261)] [(0x3000, 0x3600)]).fetch.2.pcRelative 0 = 0x3001) ∧
    (StoreReady (st [(3, 0x1261)] [(0x3000, 0xB601), (0x3002, 0x3001)]) ∧
      decode (st [(3, 0x1261)] [(0x3000, 0xB601), (0x3002, 0x3001)]).fetch.1 = .sti 3 1 ∧
      ((st [(3, 0x1261)] [(0x3000, 0xB601), (0x3002, 0x3001)]).fetch.2.indirect 1).1 = 0x3001) ∧
    (StoreReady (st [(3, 0x1261), (2, 0x3021)] [(0x3000, 0x76A0)]) ∧
      decode (st [(3, 0x1261), (2, 0x3021)] [(0x3000, 0x76A0)]).fetch.1 = .str 3 2 0b100000 ∧
      (st [(3, 0x1261), (2, 0x3021)] [(0x3000, 0x76A0)]).fetch.2.baseOffset 2 0b100000 = 0x3001) := by
  unfold StoreReady; decide

theorem witness_StepRunsTheDecodedInstruction : ∃ t ir u, (st [] [(0x3000, 0x1401)]).status = .running ∧
    (st [] [(0x3000, 0x1401)]).walk = none ∧
    (st [] [(0x3000, 0x1401)]).memRead (st [] [(0x3000, 0x1401)]).pc = (ir, u) ∧
    exec (decode ir) (u.setPc ((st [] [(0x3000, 0x1401)]).pc + 1)) = .next t := ⟨_, _, _, rfl, rfl, rfl, rfl⟩

theorem witness_DecodeFollowsTheOpcodeMap : op4 0x0000 = 0b0000 ∧
    (op4 0x1000 = 0b0001 ∧ (0x1000 : Word).getLsbD 5 = false) ∧
    (op4 0x1FFF = 0b0001 ∧ (0x1FFF : Word).getLsbD 5 = true) ∧ op4 0x2FFF = 0b0010 ∧ op4 0x3000 = 0b0011 ∧
    (op4 0x4FFF = 0b0100 ∧ (0x4FFF : Word).getLsbD 11 = true) ∧
    (op4 0x47FF = 0b0100 ∧ (0x47FF : Word).getLsbD 11 = false) ∧
    (op4 0x5FDF = 0b0101 ∧ (0x5FDF : Word).getLsbD 5 = false) ∧
    (op4 0x5020 = 0b0101 ∧ (0x5020 : Word).getLsbD 5 = true) ∧ op4 0x6000 = 0b0110 ∧ op4 0x7FFF = 0b0111 ∧
    op4 0x8000 = 0b1000 ∧ op4 0x9FFF = 0b1001 ∧ op4 0xA000 = 0b1010 ∧ op4 0xBFFF = 0b1011 ∧
    op4 0xC000 = 0b1100 ∧ op4 0xDFFF = 0b1101 ∧ op4 0xE000 = 0b1110 ∧ op4 0xFFFF = 0b1111 := by decide

theorem witness_DecodeUndoesEncode : (Instr.rti 0xFFF).wellFormed = true ∧
    (Instr.trapUnknown 0x26).wellFormed = true := by decide

theorem witness_IgnoredBitsDoNotMatter :
    ((0x9200 : Word) &&& readMask 0x923F = 0x923F &&& readMask 0x923F ∧ op4 0x923F ≠ 0b1000 ∧ op4 0x923F ≠ 0b1101) ∧
    ((0x8000 : Word) &&& readMask 0x8FFF = 0x8FFF &&& readMask 0x8FFF ∧ op4 0x8FFF = 0b1000) ∧
    ((0xDABC : Word) &&& readMask 0xD000 = 0xD000 &&& readMask 0xD000 ∧ op4 0xD000 = 0b1101) := by decide

/-- With no string service in progress, and with one: a `PUTS` that never ends. -/
theorem witness_StepKeepsTheInvariant : (Inv sample ∧ ∃ t, step sample = .next t) ∧
    (Inv (fullSample.setWalk (some ⟨.puts, 0x4000⟩)) ∧
      ∃ t, step (fullSample.setWalk (some ⟨.puts, 0x4000⟩)) = .next t) :=
  ⟨⟨⟨sample_wf, fun _ h => by cases h⟩, _, rfl⟩,
    ⟨fullMemory_wf, fun _ h => by cases h; exact ⟨rfl, rfl, rfl, fullSample_noTerminator⟩⟩, _,
    step_of_running rfl (coreStep_of_walk rfl)⟩

/-- A step that is no `PUTS`, and a `PUTS` that ends within one turn. -/
theorem witness_ProducerCannotReachTheCore : (Memory.wf sample.mem ∧ (∃ t, step sample = .next t) ∧
      decode sample.fetch.1 ≠ .trapPuts) ∧
    (Memory.wf (sample.setCell 0x3000 0xF022).mem ∧ (∃ t, step (sample.setCell 0x3000 0xF022) = .next t) ∧
      ∃ n u, n ≤ 65536 ∧ PutsRun n (sample.setCell 0x3000 0xF022).fetch.2 ((sample.setCell 0x3000 0xF022).reg 0) u) :=
  ⟨⟨sample_wf, ⟨_, rfl⟩, by decide⟩, by decide, ⟨_, step_of_running rfl rfl⟩, 3, _, by decide,
    .send _ _ _ _ (by decide) (.send _ _ _ _ (by decide) (.stop _ _ (by decide)))⟩

end Sys2Proof.Tests
end

/-!
PROOFS. The state family: what an instruction and a step can do, said once as an inversion lemma (`exec_effect`,
`step_cases`); what every such effect leaves as it was; what the decoder says of the opcode; and the statements
about the reset state, the status, the flags, the registers, the counter and the invariant.
-/

/-! ### What the decoder gives: the rows that refine `TRAP` -/

namespace Sys2Proof

open Sys2Proof.Machine Sys2Proof.Claims

/-- Every service row is a row of its own. -/
theorem trapRow_ne_trap (v w : Byte) : trapRow v ≠ .trap w := by
  unfold trapRow
  split_ifs <;> simp

/-- A refined term is no `TRAP` term. -/
theorem refine_ne_trap (i : Instr) (v : Byte) : refine i ≠ .trap v := by
  cases i
  case trap w => exact trapRow_ne_trap w v
  all_goals simp [refine]

/-- A term that is no `TRAP` term is its own refinement. -/
theorem refine_of_ne_trap {i : Instr} (h : ∀ v, i ≠ .trap v) : refine i = i := by
  cases i
  case trap v => exact absurd rfl (h v)
  all_goals rfl

/-- The decoder gives refined terms only. -/
@[simp] theorem refine_decode (ir : Word) : refine (decode ir) = decode ir :=
  refine_of_ne_trap (refine_ne_trap _)

/-- A `TRAP` word's row has the meaning that the dispatch on its vector gives (rule R190). -/
theorem exec_refine (i : Instr) (s : State) : exec (refine i) s = exec i s := by
  cases i
  case trap v =>
    show exec (trapRow v) s = execTrap v s
    unfold trapRow execTrap
    split_ifs <;> rfl
  all_goals rfl

/-- A `TRAP` term sets the flags where its row does: never. -/
theorem setsFlags_refine (i : Instr) : setsFlags (refine i) = setsFlags i := by
  cases i
  case trap v =>
    show setsFlags (trapRow v) = false
    unfold trapRow
    split_ifs <;> rfl
  all_goals rfl

/-- A `TRAP` term writes the register that its row writes. -/
theorem writesReg_refine (i : Instr) : writesReg (refine i) = writesReg i := by
  cases i
  case trap v =>
    show writesReg (trapRow v) = if v = 0x20 ∨ v = 0x23 then some 0 else none
    unfold trapRow
    split_ifs <;> simp_all [writesReg]
  all_goals rfl

end Sys2Proof

/-! ### What an instruction can do, said once -/

namespace Sys2Proof.Machine

open Sys2Proof.Claims

variable {s t u : State} {i : Instr}

/-- `u` is what the data reads of instruction `i` leave of `s` (rule R56). -/
inductive ReadsOf (i : Instr) (s : State) : State → Prop where
  | none : ReadsOf i s s
  | read {u : State} (a : Word) : readsMemory i = true → ReadsOf i s u → ReadsOf i s (u.memRead a).2

/-- Data reads write memory and the mailbox, and nothing else. -/
theorem ReadsOf.frame (h : ReadsOf i s u) : ∃ m k, u = { s with mem := m, kbdSlot := k } := by
  induction h with
  | none => exact ⟨_, _, rfl⟩
  | @read u a _ _ ih =>
    obtain ⟨m, k, rfl⟩ := ih
    obtain ⟨m', k', h⟩ := State.memRead_frame (s := { s with mem := m, kbdSlot := k }) a
    exact ⟨m', k', h⟩

/-- Data reads keep the memory canonical. -/
theorem ReadsOf.wf (h : ReadsOf i s u) (hm : Memory.wf s.mem) : Memory.wf u.mem := by
  induction h with
  | none => exact hm
  | read a _ _ ih => exact State.memRead_wf ih a

/-- `Effect s i t`: one way in which the refined instruction `i` can take `s` to `t`, with what the tables of the
spec say of `i` in that case (rules R22, R27, R30, R56, R208). -/
inductive Effect (s : State) : Instr → State → Prop where
  /-- A flag-setting write of one register, after the data reads (rule R30). -/
  | result {i : Instr} {dr : RegId} {u : State} (v : Word) (hf : setsFlags i = true) (hw : writesReg i = some dr)
      (hu : ReadsOf i s u) : Effect s i (u.writeResult dr v)
  /-- A store, after the data reads (rule R161). -/
  | store {i : Instr} {u : State} {a : Word} (v : Word) (ha : storesTo s i = some a) (hf : setsFlags i = false)
      (hu : ReadsOf i s u) : Effect s i (u.memWrite a v)
  /-- A transfer of control, or a branch that is not taken (rules R142, R144). -/
  | jump {i : Instr} (v : Word) (hc : transfersControl i = true) (hf : setsFlags i = false) :
      Effect s i (s.setPc v)
  /-- A transfer of control that links (rules R146, R148). -/
  | call {i : Instr} (v : Word) (hc : transfersControl i = true) (hf : setsFlags i = false)
      (hw : writesReg i = some 7) : Effect s i (s.link.setPc v)
  /-- A branch with no flag requested (rule R98). -/
  | nop (off9 : BitVec 9) : Effect s (.nop off9) s
  /-- The fatal error of the two reserved opcodes (rules R220, R222). -/
  | rti (low12 : BitVec 12) : Effect s (.rti low12) (s.raiseUnimplemented 0x8 ((0x8 : BitVec 4) ++ low12))
  | res (low12 : BitVec 12) : Effect s (.res low12) (s.raiseUnimplemented 0xD ((0xD : BitVec 4) ++ low12))
  /-- `GETC` or `IN` on an empty mailbox (rule R208). -/
  | hold {i : Instr} (hi : i = .trapGetc ∨ i = .trapIn) (hk : s.kbdSlot = none) : Effect s i s.hold
  /-- `GETC` with a key (rule R194). -/
  | getcKey {k : Byte} (hk : s.kbdSlot = some k) : Effect s .trapGetc ((s.setSlot none).setReg 0 (zext8 k))
  /-- `IN` with a key (rule R200). -/
  | inKey {k : Byte} (hk : s.kbdSlot = some k) :
      Effect s .trapIn (((s.setSlot none).setReg 0 (zext8 k)).outChar k)
  /-- The services that do not wait: one constructor each. -/
  | out : Effect s .trapOut s.serviceOut
  | puts : Effect s .trapPuts s.servicePuts
  | putsp : Effect s .trapPutsp s.servicePutsp
  | halt : Effect s .trapHalt s.serviceHalt
  | unknown (v : Byte) : Effect s (.trapUnknown v) (s.serviceUnknown v)

/-- Where no flag is requested no branch is taken (rule R142). -/
theorem branchTaken_no_flag (c : CC) : branchTaken false false false c = false := by
  cases c <;> rfl

/-- `NOP` changes nothing after the fetch (rules R98, R142). -/
theorem exec_nop (off9 : BitVec 9) (s : State) : exec (.nop off9) s = .next s := by
  rw [exec, execNop, branchTaken_no_flag]
  rfl

/-- A branch writes `pc`, if only with what it holds (rule R142). -/
theorem State.branchIf_eq (s : State) (taken : Bool) (off9 : BitVec 9) :
    s.branchIf taken off9 = s.setPc (if taken then s.pcRelative off9 else s.pc) := by
  cases taken <;> rfl

/-- The inversion lemma of `exec`: whatever an instruction answers is one of the effects. -/
theorem exec_effect (h : exec i s = .next t) : Effect s (refine i) t := by
  rw [← exec_refine] at h
  have hne : ∀ v, refine i ≠ .trap v := refine_ne_trap i
  generalize refine i = j at h hne ⊢
  cases j with
  | br n z p off9 =>
    cases h
    rw [State.branchIf_eq]
    exact .jump _ rfl rfl
  | nop off9 =>
    rw [exec_nop] at h
    cases h
    exact .nop off9
  | trapGetc =>
    cases h
    rcases hk : s.kbdSlot with _ | k
    · rw [State.serviceGetc_none hk]
      exact .hold (.inl rfl) hk
    · rw [State.serviceGetc_some hk]
      exact .getcKey hk
  | trapIn =>
    cases h
    rcases hk : s.kbdSlot with _ | k
    · rw [State.serviceIn_none hk]
      exact .hold (.inr rfl) hk
    · rw [State.serviceIn_some hk]
      exact .inKey hk
  | trap v => exact absurd rfl (hne v)
  | addReg | addImm | andReg | andImm | not | lea => cases h; exact .result _ rfl rfl .none
  | ld | ldr => cases h; exact .result _ rfl rfl (.read _ rfl .none)
  | ldi => cases h; exact .result _ rfl rfl (.read _ rfl (.read _ rfl .none))
  | st | str => cases h; exact .store _ rfl rfl .none
  | sti => cases h; exact .store _ rfl rfl (.read _ rfl .none)
  | jmp | ret => cases h; exact .jump _ rfl rfl
  | jsr | jsrr => cases h; exact .call _ rfl rfl rfl
  | rti low12 => cases h; exact .rti low12
  | res low12 => cases h; exact .res low12
  | trapOut => cases h; exact .out
  | trapPuts => cases h; exact .puts
  | trapPutsp => cases h; exact .putsp
  | trapHalt => cases h; exact .halt
  | trapUnknown v => cases h; exact .unknown v

end Sys2Proof.Machine

/-! ### What an effect and a string service leave as they were -/

namespace Sys2Proof.Machine

open Sys2Proof.Claims

variable {s t u : State} {i : Instr}

@[simp] theorem State.stringService_regs (w : Walk) : (s.stringService w).regs = s.regs := by
  obtain ⟨m, k, o, ks, d, v, h⟩ := s.stringService_frame w; rw [h]
@[simp] theorem State.stringService_pc (w : Walk) : (s.stringService w).pc = s.pc := by
  obtain ⟨m, k, o, ks, d, v, h⟩ := s.stringService_frame w; rw [h]
@[simp] theorem State.stringService_cc (w : Walk) : (s.stringService w).cc = s.cc := by
  obtain ⟨m, k, o, ks, d, v, h⟩ := s.stringService_frame w; rw [h]
@[simp] theorem State.stringService_status (w : Walk) : (s.stringService w).status = s.status := by
  obtain ⟨m, k, o, ks, d, v, h⟩ := s.stringService_frame w; rw [h]
@[simp] theorem State.stringService_reports (w : Walk) : (s.stringService w).reports = s.reports := by
  obtain ⟨m, k, o, ks, d, v, h⟩ := s.stringService_frame w; rw [h]

/-- Every effect keeps the memory canonical. -/
theorem Effect.wf (h : Effect s i t) (hm : Memory.wf s.mem) : Memory.wf t.mem := by
  cases h with
  | result v _ _ hu => exact hu.wf hm
  | store v _ _ hu => exact State.memWrite_wf (hu.wf hm) _ v
  | puts | putsp => exact State.stringService_wf hm _
  | _ => exact hm

/-- A string service that is not done is a `PUTS`, or was in progress before (log entries 3 and 14). -/
theorem Effect.walk (h : Effect s i t) (hm : Memory.wf s.mem) (hi : i ≠ .trapPuts) : t.walk = s.walk := by
  cases h with
  | result _ _ _ hu | store _ _ _ hu =>
    obtain ⟨m, k, rfl⟩ := hu.frame
    rfl
  | puts => exact absurd rfl hi
  | putsp => rw [State.servicePutsp_eq hm, State.stringTurn_walk]
  | _ => rfl

/-- The effects that change `STATE` are those of `HALT`, `RTI` and `RES`. -/
theorem Effect.status (h : Effect s i t) : t.status = s.status ∨
    (i = .trapHalt ∧ t.status = .halted) ∨
    (∃ low12, i = .rti low12 ∧
      t.status = .faulted (.unimplementedOpcode 0x8 ((0x8 : BitVec 4) ++ low12) s.instrAddr)) ∨
    (∃ low12, i = .res low12 ∧
      t.status = .faulted (.unimplementedOpcode 0xD ((0xD : BitVec 4) ++ low12) s.instrAddr)) := by
  cases h with
  | halt => exact .inr (.inl ⟨rfl, rfl⟩)
  | rti low12 => exact .inr (.inr (.inl ⟨low12, rfl, rfl⟩))
  | res low12 => exact .inr (.inr (.inr ⟨low12, rfl, rfl⟩))
  | result _ _ _ hu | store _ _ _ hu =>
    obtain ⟨m, k, rfl⟩ := hu.frame
    exact .inl rfl
  | puts | putsp => exact .inl (State.stringService_status _)
  | _ => exact .inl rfl

/-- An effect either leaves `CC` as it was, or it is that of a flag-setting instruction and leaves the flag of the
value it writes. -/
theorem Effect.cc (h : Effect s i t) : (setsFlags i = false ∧ t.cc = s.cc) ∨
    (setsFlags i = true ∧ ∃ dr, writesReg i = some dr ∧ t.cc = flagOf (t.reg dr)) := by
  cases h with
  | result v hf hw _ =>
    refine .inr ⟨hf, _, hw, ?_⟩
    rw [State.writeResult_cc, State.reg_writeResult, if_pos rfl]
  | store _ _ hf hu =>
    obtain ⟨m, k, rfl⟩ := hu.frame
    exact .inl ⟨hf, rfl⟩
  | jump _ _ hf | call _ _ hf _ => exact .inl ⟨hf, rfl⟩
  | hold hi hk => rcases hi with rfl | rfl <;> exact .inl ⟨rfl, rfl⟩
  | puts | putsp => exact .inl ⟨rfl, State.stringService_cc _⟩
  | _ => exact .inl ⟨rfl, rfl⟩

/-- An effect writes no general register but the one that the table names. -/
theorem Effect.reg (h : Effect s i t) {r : RegId} (hr : writesReg i ≠ some r) : t.reg r = s.reg r := by
  cases h with
  | result v _ hw hu =>
    obtain ⟨m, k, rfl⟩ := hu.frame
    rw [State.reg_writeResult, if_neg fun e : r = _ => hr (e ▸ hw)]
    rfl
  | store _ _ _ hu =>
    obtain ⟨m, k, rfl⟩ := hu.frame
    rfl
  | call v _ _ hw => exact State.reg_setReg_ne s s.pc fun e => hr (e ▸ hw)
  | getcKey | inKey => exact State.reg_setReg_ne (s.setSlot none) _ fun e => hr (e ▸ rfl)
  | puts | putsp => exact congrArg (·[r.toNat]'r.isLt) (State.stringService_regs _)
  | _ => rfl

/-- An effect that transfers no control leaves the advanced counter as it was, or `GETC` or `IN` waits. -/
theorem Effect.pc (h : Effect s i t) (hc : transfersControl i = false) : t.pc = s.pc ∨
    ((i = .trapGetc ∨ i = .trapIn) ∧ s.kbdSlot = none ∧ t.pc = s.instrAddr) := by
  cases h with
  | result _ _ _ hu | store _ _ _ hu =>
    obtain ⟨m, k, rfl⟩ := hu.frame
    exact .inl rfl
  | jump _ hc' | call _ hc' => rw [hc] at hc'; cases hc'
  | hold hi hk => exact .inr ⟨hi, hk, rfl⟩
  | puts | putsp => exact .inl (State.stringService_pc _)
  | _ => exact .inl rfl

/-- What a step can be: the core has stopped, a string service goes on, or the fetched instruction has its
effect; a running core's step ends with the producer's move (rules R266, R267). -/
theorem step_cases (h : step s = .next t) :
    (s.status ≠ .running ∧ t = s) ∨
    (s.status = .running ∧ ∃ w, s.walk = some w ∧ t = (s.resumeWalk w).keyboardMove) ∨
    (s.status = .running ∧ s.walk = none ∧
      ∃ u, Effect s.fetch.2 (decode s.fetch.1) u ∧ t = u.keyboardMove) := by
  by_cases hr : s.status = .running
  · rcases hw : s.walk with _ | w
    · rw [step, hr] at h
      dsimp only at h
      split at h
      · next u hu =>
        cases h
        rw [coreStep_of_fetch hw] at hu
        have e := exec_effect hu
        rw [refine_decode] at e
        exact .inr (.inr ⟨hr, rfl, u, e, rfl⟩)
      · cases h
      · cases h
    · rw [step_of_running hr (coreStep_of_walk hw)] at h
      cases h
      exact .inr (.inl ⟨hr, w, rfl, rfl⟩)
  · rw [step_of_stopped hr] at h
    cases h
    exact .inl ⟨hr, rfl⟩

/-- A running core that fetches takes the step that its instruction answers. -/
theorem step_of_exec (hr : s.status = .running) (hw : s.walk = none)
    (hx : exec (decode s.fetch.1) s.fetch.2 = .next t) : step s = .next t.keyboardMove :=
  step_of_running hr ((coreStep_of_fetch hw).trans hx)

/-- The fetched instruction's address is the counter before the fetch (rule R25). -/
@[simp] theorem State.instrAddr_fetch : s.fetch.2.instrAddr = s.pc := by
  rw [State.instrAddr, State.fetch_pc, BitVec.add_sub_cancel]

/-- A service in progress leaves `STATE` as it is. -/
theorem State.resumeWalk_status (w : Walk) : (s.resumeWalk w).status = s.status := by
  rw [State.resumeWalk, leaveService]
  split <;> simp

end Sys2Proof.Machine

/-! ### The invariant -/

namespace Sys2Proof.Machine

open Sys2Proof.Claims

variable {s t u : State}

/-- With no string service in progress the invariant is the canonical form of the memory. -/
theorem inv_of_walk_none (hm : Memory.wf s.mem) (hw : s.walk = none) : Inv s :=
  ⟨hm, fun w h => by rw [hw] at h; cases h⟩

/-- After the producer's move that follows a turn of a `PUTS` without a terminator the invariant holds: the move
puts a nonzero key into the mailbox that the turn has emptied. -/
theorem inv_keyboardMove_of_endless (hr : s.status = .running) (hw : s.walk = some ⟨.puts, s.reg 0⟩)
    (hn : NoTerminator s) (hk : s.kbdSlot = none) : Inv s.keyboardMove := by
  rw [State.keyboardMove_of_some hw]
  refine ⟨hn.1, fun w h => ?_⟩
  rw [State.endlessMove_walk, hw] at h
  cases h
  exact ⟨hr, rfl, rfl, hn, State.endlessMove_waits hk⟩

/-- A service that is left while its loop has not ended stays in progress. -/
theorem leaveService_of_goesOn {w : Walk} {r : Bool × State} (h : r.1 = true) :
    leaveService w r = r.2.setWalk (some w) := by
  rw [leaveService, if_pos h]

/-- A service whose loop has ended is done. -/
theorem leaveService_of_ended {w : Walk} {r : Bool × State} (h : r.1 = false) : leaveService w r = r.2 := by
  rw [leaveService, h]; rfl

/-- The turns of a service leave the model's own field for a service in progress as it was. -/
theorem State.serviceTurns_walk (w : Walk) : (s.serviceTurns w).2.walk = s.walk := by
  refine State.serviceTurns_ind (P := fun t => t.walk = s.walk) w (fun t a ht => ?_) (fun _ _ _ _ ht => ht) rfl
  obtain ⟨m, k, o, h⟩ := t.stringCell_frame w.kind a
  rw [h]
  exact ht

/-- A service in progress that never ends goes on with a turn of the same kind. -/
theorem inv_resumeWalk {w : Walk} (hi : Inv s) (hw : s.walk = some w) : Inv (s.resumeWalk w).keyboardMove := by
  obtain ⟨hr, hkind, haddr, hn, hkey⟩ := hi.2 w hw
  obtain ⟨kind, a⟩ := w
  dsimp only at hkind haddr
  subst hkind haddr
  have hgo : ((s.setWalk none).stringTurn ⟨.puts, s.reg 0⟩).1 = true :=
    State.stringTurn_goesOn (s := s.setWalk none) hn hkey _
  obtain ⟨k, hk, hk0⟩ := hkey
  obtain ⟨hn', hk'⟩ := noTerminator_of_turn (s := s.setWalk none) hi.1
    (fun k' h => by cases hk.symm.trans h; exact hk0) hgo
  rw [State.resumeWalk, leaveService_of_goesOn hgo]
  refine inv_keyboardMove_of_endless ?_ ?_ hn' hk'
  · simpa using hr
  · simp [State.reg]

/-- A `PUTS` keeps the invariant: either it is done, or it never ends. -/
theorem inv_servicePuts (hm : Memory.wf s.mem) (hr : s.status = .running) (hw : s.walk = none) :
    Inv s.servicePuts.keyboardMove := by
  have hstatus : s.servicePuts.status = .running := (State.stringService_status _).trans hr
  have hreg : s.servicePuts.reg 0 = s.reg 0 := by simp [State.reg, State.servicePuts]
  have hwf : Memory.wf s.servicePuts.mem := State.stringService_wf hm _
  rcases hgo : (s.serviceTurns ⟨.puts, s.reg 0⟩).1 with _ | _
  · have e : s.servicePuts = _ := leaveService_of_ended hgo
    refine inv_of_walk_none (by simpa using hwf) ?_
    rw [State.keyboardMove_walk, e, State.serviceTurns_walk, hw]
  · have e : s.servicePuts = _ := leaveService_of_goesOn hgo
    obtain ⟨hn, hk⟩ := State.serviceTurns_endless hm hgo
    refine inv_keyboardMove_of_endless hstatus ?_ ?_ ?_
    · rw [hreg, e, State.setWalk_walk]
    · rw [e]; exact hn
    · rw [e]; exact hk

/-- Settles O59: a stopped core keeps its state, a `PUTS` that never ends goes on, and a fetched instruction keeps
the canonical form and leaves a service in progress only where it is a `PUTS` that never ends. -/
theorem stepKeepsTheInvariant : Obligations.StepKeepsTheInvariant := by
  intro s t hi h
  rcases step_cases h with ⟨_, rfl⟩ | ⟨_, w, hw, rfl⟩ | ⟨hr, hw, u, e, rfl⟩
  · exact hi
  · exact inv_resumeWalk hi hw
  · have hm : Memory.wf s.fetch.2.mem := State.fetch_wf hi.1
    have hw' : s.fetch.2.walk = none := s.fetch_walk.trans hw
    generalize decode s.fetch.1 = i at e
    by_cases hp : i = .trapPuts
    · subst hp
      cases e
      case puts => exact inv_servicePuts hm (s.fetch_status.trans hr) hw'
      all_goals contradiction
    · exact inv_of_walk_none (by simpa using e.wf hm) (by rw [State.keyboardMove_walk, e.walk hm hp, hw'])

end Sys2Proof.Machine

/-! ### What the decoder says of the opcode, of the reserved words and of the `TRAP` words -/

namespace Sys2Proof

open Sys2Proof.Machine Sys2Proof.Claims Sys2Proof.Laws.OpcodeField

/-- The opcode, bit by bit (rule R82). -/
theorem op4_eq_iff (ir : Word) (op : BitVec 4) : op4 ir = op ↔ ir.getLsbD 15 = op.getLsbD 3 ∧
    ir.getLsbD 14 = op.getLsbD 2 ∧ ir.getLsbD 13 = op.getLsbD 1 ∧ ir.getLsbD 12 = op.getLsbD 0 := by
  constructor
  · rintro rfl
    simp [op4]
  · rintro ⟨h3, h2, h1, h0⟩
    refine BitVec.eq_of_getLsbD_eq fun i hi => ?_
    rw [op4, BitVec.getLsbD_extractLsb', decide_eq_true hi, Bool.true_and]
    obtain rfl | rfl | rfl | rfl : i = 0 ∨ i = 1 ∨ i = 2 ∨ i = 3 := by omega
    exacts [h0, h1, h2, h3]

/-- The row that rule R91 gives a word has the word's opcode (rule R90). -/
theorem opcode_decodeFields (ir : Word) : opcode (decodeFields ir) = op4 ir := by
  rw [eq_comm, op4_eq_iff]
  unfold decodeFields
  split
  case h_2 | h_5 | h_6 =>
    rename_i h3 h2 h1 h0
    split <;> simp only [h3, h2, h1, h0, opcode] <;> decide
  all_goals
    rename_i h3 h2 h1 h0
    simp only [h3, h2, h1, h0, opcode]
    decide

/-- A service row has the opcode of `TRAP`. -/
theorem opcode_refine (i : Instr) : opcode (refine i) = opcode i := by
  cases i
  case trap v =>
    show opcode (trapRow v) = 0xF
    unfold trapRow
    split_ifs <;> rfl
  all_goals rfl

/-- The decoder follows the opcode map (rules R90, R91). -/
theorem opcode_decode (ir : Word) : opcode (decode ir) = op4 ir := by
  rw [decode, opcode_refine, opcode_decodeFields]

/-- The row of a word, by its opcode: the words of `RTI` (rule R220). -/
theorem decode_of_op4_rti {ir : Word} (h : op4 ir = 0x8) : decode ir = .rti (field ir 0 12) := by
  obtain ⟨h3, h2, h1, h0⟩ := (op4_eq_iff ir _).mp h
  rw [decode, decodeFields, h3, h2, h1, h0]
  rfl

/-- The words of `RES` (rule R222). -/
theorem decode_of_op4_res {ir : Word} (h : op4 ir = 0xD) : decode ir = .res (field ir 0 12) := by
  obtain ⟨h3, h2, h1, h0⟩ := (op4_eq_iff ir _).mp h
  rw [decode, decodeFields, h3, h2, h1, h0]
  rfl

/-- The words of `TRAP`: the low byte selects the service row (rule R99). -/
theorem decode_of_op4_trap {ir : Word} (h : op4 ir = 0xF) : decode ir = trapRow (lowByte ir) := by
  obtain ⟨h3, h2, h1, h0⟩ := (op4_eq_iff ir _).mp h
  rw [decode, decodeFields, h3, h2, h1, h0]
  rfl

/-- A word is its opcode and the twelve bits below it. -/
theorem op4_append_field (ir : Word) : op4 ir ++ field ir 0 12 = ir := by
  refine BitVec.eq_of_getLsbD_eq fun i hi => ?_
  rw [BitVec.getLsbD_append]
  split_ifs with h
  · simp [field, h]
  · have h4 : i - 12 < 4 := by omega
    simp [op4, h4, show 12 + (i - 12) = i by omega]

/-- An `RTI` is decoded from the word of its fields only. -/
theorem eq_of_decode_rti {ir : Word} {low12 : BitVec 12} (h : decode ir = .rti low12) :
    op4 ir = 0x8 ∧ (0x8 : BitVec 4) ++ low12 = ir := by
  have hop : op4 ir = 0x8 := by rw [← opcode_decode, h]; rfl
  rw [decode_of_op4_rti hop] at h
  cases h
  exact ⟨hop, hop ▸ op4_append_field ir⟩

/-- A `RES` is decoded from the word of its fields only. -/
theorem eq_of_decode_res {ir : Word} {low12 : BitVec 12} (h : decode ir = .res low12) :
    op4 ir = 0xD ∧ (0xD : BitVec 4) ++ low12 = ir := by
  have hop : op4 ir = 0xD := by rw [← opcode_decode, h]; rfl
  rw [decode_of_op4_res hop] at h
  cases h
  exact ⟨hop, hop ▸ op4_append_field ir⟩

/-- `GETC` and `IN` are decoded from `TRAP` words with their vectors only (rules R194, R200). -/
theorem vector_of_decode_waits {ir : Word} (h : decode ir = .trapGetc ∨ decode ir = .trapIn) :
    op4 ir = 0xF ∧ (lowByte ir = 0x20 ∨ lowByte ir = 0x23) := by
  have hop : op4 ir = 0xF := by rw [← opcode_decode]; rcases h with h | h <;> rw [h] <;> rfl
  rw [decode_of_op4_trap hop, trapRow] at h
  refine ⟨hop, ?_⟩
  split_ifs at h <;> simp_all

end Sys2Proof

/-! ### The reset state and the loader's image (rules R41, R262) -/

namespace Sys2Proof.Machine

open Sys2Proof.Claims

variable {s t : State}

/-- The loader writes memory and `pc`, and nothing else. -/
theorem State.load_frame (image : Image) : ∃ m, s.load image = { s with mem := m, pc := Config.entry } := by
  suffices h : ∀ (s : State), ∃ m, image.foldl (fun t c => t.memWrite c.1 c.2) s = { s with mem := m } by
    obtain ⟨m, h⟩ := h s
    exact ⟨m, by rw [State.load, h]; rfl⟩
  induction image with
  | nil => exact fun s => ⟨s.mem, rfl⟩
  | cons c image ih => exact fun s => ih (s.memWrite c.1 c.2)

/-- A cell holds the last word that the loader wrote to it, or what it held before. -/
theorem State.cell_load (h : Memory.wf s.mem) (image : Image) (a : Word) :
    (s.load image).cell a = (image.reverse.lookup a).getD (s.cell a) := by
  show (image.foldl (fun t c => t.memWrite c.1 c.2) s).cell a = _
  induction image generalizing s with
  | nil => rfl
  | cons c image ih =>
    rw [List.foldl_cons, ih (State.memWrite_wf h c.1 c.2), State.memWrite, State.cell_setCell h, List.reverse_cons,
      List.lookup_append]
    by_cases hc : a = c.1
    · simp [List.lookup, hc]
    · simp [List.lookup, hc, beq_false_of_ne hc]

/-- At reset every general register holds `0x0000`. -/
theorem State.reg_reset (r : RegId) : State.reset.reg r = 0 := by
  simp [State.reg, State.reset]

/-- Settles O1: the loader changes memory and `pc` only, and its last write to a cell is the one that is read. -/
theorem resetAndLoadedState : Obligations.ResetAndLoadedState := by
  intro image s hs
  have hcells : s = State.reset → ∀ a, s.cell a = 0 := by rintro rfl a; rfl
  have himage : s = State.reset.load image → ∀ a, s.cell a = (image.reverse.lookup a).getD 0 := by
    rintro rfl a
    exact State.cell_load Memory.reset_wf image a
  obtain ⟨m, hl⟩ := State.load_frame (s := State.reset) image
  rcases hs with rfl | rfl
  · exact ⟨State.reg_reset, rfl, rfl, rfl, rfl, rfl, rfl, hcells, himage⟩
  · refine ⟨?_, ?_, ?_, ?_, ?_, ?_, ?_, hcells, himage⟩ <;> rw [hl]
    · exact State.reg_reset
    all_goals rfl

/-! ### The status: its writers and its transitions (rule R33) -/

/-- A word of a reserved opcode raises the fault with the whole word in the record (rules R220, R222). -/
theorem exec_decode_reserved {ir : Word} {op : BitVec 4} (h : op = 0b1000 ∨ op = 0b1101) (hop : op4 ir = op) :
    exec (decode ir) s = .next (s.raiseUnimplemented op ir) := by
  have hir : op ++ field ir 0 12 = ir := hop ▸ op4_append_field ir
  rcases h with rfl | rfl
  · rw [decode_of_op4_rti hop, ← congrArg (s.raiseUnimplemented _) hir]; rfl
  · rw [decode_of_op4_res hop, ← congrArg (s.raiseUnimplemented _) hir]; rfl

/-- Settles O43: the effects that change `STATE` are those of `HALT`, `RTI` and `RES`, and the decoder gives
these three for their words only and for all of them. -/
theorem statusTransitions : Obligations.StatusTransitions := by
  refine ⟨fun s t h hne => ?_, fun s hr hw => ⟨fun hd => ?_, ?_⟩, rfl⟩
  · rcases step_cases h with ⟨_, rfl⟩ | ⟨_, w, _, rfl⟩ | ⟨hr, _, u, e, rfl⟩
    · exact absurd rfl hne
    · rw [State.keyboardMove_status, State.resumeWalk_status] at hne
      exact absurd rfl hne
    · rw [State.keyboardMove_status] at hne ⊢
      refine ⟨hr, ?_⟩
      rcases e.status with hs | hs | ⟨low12, hi, hs⟩ | ⟨low12, hi, hs⟩
      · exact absurd (hs.trans s.fetch_status) hne
      · exact .inl hs
      · obtain ⟨hop, hir⟩ := eq_of_decode_rti hi
        rw [hir, State.instrAddr_fetch] at hs
        exact .inr ⟨_, .inl rfl, hop, hs⟩
      · obtain ⟨hop, hir⟩ := eq_of_decode_res hi
        rw [hir, State.instrAddr_fetch] at hs
        exact .inr ⟨_, .inr rfl, hop, hs⟩
  · have hx : exec (decode s.fetch.1) s.fetch.2 = .next s.fetch.2.serviceHalt := by rw [hd]; rfl
    exact ⟨_, step_of_exec hr hw hx, State.keyboardMove_status⟩
  · intro op hres hop
    refine ⟨_, step_of_exec hr hw (exec_decode_reserved hres hop), ?_⟩
    rw [State.keyboardMove_status, State.raiseUnimplemented, State.setStatus_status, State.instrAddr_fetch]

end Sys2Proof.Machine

/-! ### The writers of the flags and of the general registers, and the counter (rules R22, R27, R30) -/

namespace Sys2Proof.Machine

open Sys2Proof.Claims

variable {s t : State} {i : Instr}

/-- The flag that `flagOf` gives is the one that stands for the value (rule R29). -/
theorem flagFor_flagOf (v : Word) : FlagFor v (flagOf v) := by
  refine ⟨fun h => ?_, fun h hn => ?_, fun h hp => ?_⟩
  · rw [flagOf, if_pos h]
  · rw [flagOf, if_neg h, if_pos hn]
  · rw [flagOf, if_neg h, if_neg (hp ▸ Bool.false_ne_true)]

/-- Settles O2: the flag written is that of `flagOf`, and no other field is written. -/
theorem setccDerivesTheFlag : Obligations.SetccDerivesTheFlag :=
  fun _ v => ⟨flagFor_flagOf v, fun _ => rfl, rfl, rfl, fun _ => rfl, ⟨rfl, rfl, rfl⟩, ⟨rfl, rfl, rfl⟩⟩

/-- Settles O44, by the effect of the instruction. -/
theorem flagWriters : Obligations.FlagWriters := by
  intro i s t h
  rw [← setsFlags_refine, ← writesReg_refine]
  rcases (exec_effect h).cc with ⟨hf, hcc⟩ | ⟨hf, dr, hw, hcc⟩
  · exact ⟨fun _ => hcc, fun hf' => Bool.noConfusion (hf.symm.trans hf')⟩
  · exact ⟨fun hf' => Bool.noConfusion (hf.symm.trans hf'), fun _ => ⟨dr, hw, hcc ▸ flagFor_flagOf _⟩⟩

/-- Settles O46, by the effect of the instruction. -/
theorem registerWriters : Obligations.RegisterWriters := by
  intro i s t h r hr
  rw [← writesReg_refine] at hr
  exact (exec_effect h).reg hr

/-- A fetch from the keyboard status cell gives no `TRAP` word (rules R57, R208). -/
theorem State.pc_ne_kbsr_of_fetch_trap (hm : Memory.wf s.mem) (h : op4 s.fetch.1 = 0xF) : s.pc ≠ Config.kbsr := by
  intro hp
  rw [State.fetch_eq, hp] at h
  dsimp only at h
  rw [State.memRead_kbsr_word hm] at h
  split at h <;> exact absurd h (by decide)

/-- Where the fetched instruction waits for a key the core is on hold (rule R208). -/
theorem holds_of_waits (hm : Memory.wf s.mem) (hr : s.status = .running) (hw : s.walk = none)
    (hi : decode s.fetch.1 = .trapGetc ∨ decode s.fetch.1 = .trapIn) (hk : s.fetch.2.kbdSlot = none) : Holds s := by
  obtain ⟨hop, hv⟩ := vector_of_decode_waits hi
  have hp := State.pc_ne_kbsr_of_fetch_trap hm hop
  have hf : s.memRead s.pc = (s.cell s.pc, s) := State.memRead_of_ne hp
  rw [State.fetch_eq, hf] at hop hv hk
  exact ⟨hr, hw, hp, hop, hv, hk⟩

/-- Settles O48: the fetch advances `pc`, and an effect that transfers no control keeps it there, unless the core
is on hold. -/
theorem counterAdvances : Obligations.CounterAdvances := by
  intro s t hm hr hw h hc
  rcases step_cases h with ⟨hns, _⟩ | ⟨_, w, hw', _⟩ | ⟨_, _, u, e, rfl⟩
  · exact absurd hr hns
  · rw [hw] at hw'; cases hw'
  · rw [State.keyboardMove_pc]
    rcases e.pc hc with hp | ⟨hi, hk, hp⟩
    · exact .inl hp
    · exact .inr ⟨holds_of_waits hm hr hw hi hk, hp.trans State.instrAddr_fetch⟩

/-! ### The producer and the invariant at the start (rules R38, R41, R69) -/

/-- Settles O9: the mailbox after a move is that of `slotAfter`, and no other field of the core is written. -/
theorem producerFillsTheMailbox : Obligations.ProducerFillsTheMailbox := by
  refine ⟨fun s => ⟨fun _ => rfl, ⟨rfl, rfl, rfl⟩, fun _ => rfl, rfl, rfl, rfl, fun h => ?_, fun h => ?_, rfl⟩,
    fun policy _ _ => ⟨rfl, rfl, rfl⟩⟩
  · rw [State.producerMove_kbdSlot, h, slotAfter_empty]
  · obtain ⟨old, h⟩ := Option.ne_none_iff_exists'.mp h
    rw [State.producerMove_kbdSlot, h]
    exact Option.isSome_iff_ne_none.mp (slotAfter_isSome _ old _)

/-- The start state of a program has a canonical memory and no string service in progress. -/
theorem State.start_inv (image : Image) : Inv (State.start image) ∧ (State.start image).walk = none := by
  obtain ⟨m, h⟩ := State.load_frame (s := State.reset) image
  have hw : (State.start image).walk = none := by rw [State.start, State.producerMove_walk, h]; rfl
  exact ⟨inv_of_walk_none (State.load_wf Memory.reset_wf image) hw, hw⟩

/-- Settles O58: the loader's stores keep the canonical form, and nothing before the first step begins a string
service. -/
theorem invariantAtReset : Obligations.InvariantAtReset :=
  ⟨⟨inv_of_walk_none Memory.reset_wf rfl, rfl⟩, State.start_inv⟩

end Sys2Proof.Machine

/-! ### The reader of the flags (rule R30) -/

namespace Sys2Proof.Machine

open Sys2Proof.Claims

variable {s t : State} {i : Instr} {f : State → State}

/-- A poll does not look at `CC`. -/
theorem State.kbdPoll_setCc (c : CC) : (s.setCc c).kbdPoll = s.kbdPoll.setCc c := by
  rcases hk : s.kbdSlot with _ | k
  · rw [State.kbdPoll_none hk, State.kbdPoll_none (s := s.setCc c) hk]; rfl
  · rw [State.kbdPoll_some hk, State.kbdPoll_some (s := s.setCc c) hk]; rfl

/-- A read does not look at `CC`. -/
theorem State.memRead_setCc (c : CC) (a : Word) :
    (s.setCc c).memRead a = ((s.memRead a).1, (s.memRead a).2.setCc c) := by
  by_cases ha : a = Config.kbsr
  · rw [ha, State.memRead_kbsr, State.memRead_kbsr, State.kbdPoll_setCc]; rfl
  · rw [State.memRead_of_ne ha, State.memRead_of_ne ha]; rfl

/-- The loop of a string service commutes with a change `f` of the state with which its reads commute. -/
theorem stringWalk_map {kind : StringKind}
    (hcell : ∀ t a, (f t).stringCell kind a = ((t.stringCell kind a).1, f (t.stringCell kind a).2)) (n : Nat)
    (a : Word) : stringWalk kind n a (f s) = ((stringWalk kind n a s).1, f (stringWalk kind n a s).2) := by
  induction n generalizing a s with
  | zero => rfl
  | succ n ih =>
    rw [stringWalk, stringWalk, hcell]
    split
    · exact ih (a + 1)
    · rfl

/-- `goOn` commutes with a change of the state with which what follows commutes. -/
theorem goOn_map {next : State → Bool × State} (hnext : ∀ t, next (f t) = ((next t).1, f (next t).2))
    (r : Bool × State) : goOn (r.1, f r.2) next = ((goOn r next).1, f (goOn r next).2) := by
  rw [goOn, goOn]
  split
  · exact hnext r.2
  · rfl

/-- More turns commute with a change of the state with which a turn and the moves commute. -/
theorem moreTurns_map {α : Type} {w : Walk} {move : α → State → State}
    (hturn : ∀ t, (f t).stringTurn w = ((t.stringTurn w).1, f (t.stringTurn w).2))
    (hmove : ∀ k t, move k (f t) = f (move k t)) (ks : List α) :
    moreTurns w move ks (f s) = ((moreTurns w move ks s).1, f (moreTurns w move ks s).2) := by
  induction ks generalizing s with
  | nil => rfl
  | cons k ks ih =>
    rw [moreTurns, hmove, hturn]
    exact goOn_map (fun t => ih) _

/-- A read of the loop does not look at `CC`. -/
theorem State.stringCell_setCc (c : CC) (kind : StringKind) (a : Word) :
    (s.setCc c).stringCell kind a = ((s.stringCell kind a).1, (s.stringCell kind a).2.setCc c) := by
  cases kind
  · simp only [State.stringCell, State.putsCell, State.memRead_setCc]
    split <;> rfl
  · simp only [State.stringCell, State.putspCell, State.memRead_setCc]
    split_ifs <;> rfl

/-- A turn does not look at `CC`. -/
theorem State.stringTurn_setCc (c : CC) (w : Walk) :
    (s.setCc c).stringTurn w = ((s.stringTurn w).1, (s.stringTurn w).2.setCc c) :=
  stringWalk_map (f := (State.setCc · c)) (fun _ _ => State.stringCell_setCc c w.kind _) _ _

/-- The turns whose moves are given do not look at `CC`. -/
theorem State.givenTurns_setCc (c : CC) (w : Walk) :
    (s.setCc c).givenTurns w = ((s.givenTurns w).1, (s.givenTurns w).2.setCc c) :=
  moreTurns_map (f := (State.setCc · c)) (move := fun _ t => t.producerMove) (fun _ => State.stringTurn_setCc c w)
    (fun _ _ => rfl) s.keys

/-- The turns after them do not look at `CC`. -/
theorem State.freeTurns_setCc (c : CC) (w : Walk) :
    (s.setCc c).freeTurns w = ((s.freeTurns w).1, (s.freeTurns w).2.setCc c) := by
  rw [State.freeTurns, State.freeTurns, State.setCc_draws]
  split
  · exact moreTurns_map (s := s.nextDraw) (f := (State.setCc · c)) (move := fun k t => t.arrive k)
      (fun _ => State.stringTurn_setCc c w) (fun _ _ => rfl) _
  · exact State.stringTurn_setCc (s := s.endlessMove) c w

/-- A string service does not look at `CC`. -/
theorem State.stringService_setCc (c : CC) (w : Walk) :
    (s.setCc c).stringService w = (s.stringService w).setCc c := by
  have hturns : (s.setCc c).serviceTurns w = ((s.serviceTurns w).1, (s.serviceTurns w).2.setCc c) := by
    rw [State.serviceTurns, State.stringTurn_setCc,
      goOn_map (f := (State.setCc · c)) fun _ => State.givenTurns_setCc c w]
    exact goOn_map (f := (State.setCc · c)) (fun _ => State.freeTurns_setCc c w) _
  rw [State.stringService, hturns, State.stringService, leaveService, leaveService]
  split <;> rfl

/-- A load sets the flags whatever they were. -/
theorem State.loadFrom_setCc (c : CC) (dr : RegId) (ea : Word) :
    (s.setCc c).loadFrom dr ea = s.loadFrom dr ea := by
  rw [State.loadFrom, State.memRead_setCc]; rfl

/-- The pointer read does not look at `CC`. -/
theorem State.indirect_setCc (c : CC) (off9 : BitVec 9) :
    (s.setCc c).indirect off9 = ((s.indirect off9).1, (s.indirect off9).2.setCc c) :=
  State.memRead_setCc c _

/-- `GETC` does not look at `CC`. -/
theorem State.serviceGetc_setCc (c : CC) : (s.setCc c).serviceGetc = s.serviceGetc.setCc c := by
  rcases hk : s.kbdSlot with _ | k
  · rw [State.serviceGetc_none hk, State.serviceGetc_none (s := s.setCc c) hk]; rfl
  · rw [State.serviceGetc_some hk, State.serviceGetc_some (s := s.setCc c) hk]; rfl

/-- `IN` does not look at `CC`. -/
theorem State.serviceIn_setCc (c : CC) : (s.setCc c).serviceIn = s.serviceIn.setCc c := by
  rcases hk : s.kbdSlot with _ | k
  · rw [State.serviceIn_none hk, State.serviceIn_none (s := s.setCc c) hk]; rfl
  · rw [State.serviceIn_some hk, State.serviceIn_some (s := s.setCc c) hk]; rfl

/-- No `TRAP` row is a branch. -/
theorem refine_ne_br (h : ∀ n z p off9, i ≠ .br n z p off9) (n z p : Bool) (off9 : BitVec 9) :
    refine i ≠ .br n z p off9 := by
  by_cases hi : ∃ v, i = .trap v
  · obtain ⟨v, rfl⟩ := hi
    show trapRow v ≠ _
    unfold trapRow
    split_ifs <;> simp
  · rw [refine_of_ne_trap fun v hv => hi ⟨v, hv⟩]
    exact h n z p off9

/-- Settles O45: the data reads and the string services commute with a change of `CC`, and every other
instruction but `BR` does not mention it. -/
theorem flagReaders : Obligations.FlagReaders := by
  intro i s t c hbr h
  rw [← exec_refine] at h ⊢
  rw [← setsFlags_refine]
  have hne : ∀ v, refine i ≠ .trap v := refine_ne_trap i
  have hbr := refine_ne_br hbr
  generalize refine i = j at h hne hbr ⊢
  cases j with
  | br n z p off9 => exact absurd rfl (hbr n z p off9)
  | trap v => exact absurd rfl (hne v)
  | ld | ldr => cases h; exact congrArg Host.Outcome.next (State.loadFrom_setCc c _ _)
  | ldi dr off9 =>
    cases h
    show Host.Outcome.next (State.loadFrom (State.indirect _ off9).2 dr (State.indirect _ off9).1) = _
    rw [State.indirect_setCc, State.loadFrom_setCc]
    rfl
  | sti sr off9 =>
    cases h
    show Host.Outcome.next (State.storeTo (State.indirect _ off9).2 sr (State.indirect _ off9).1) = _
    rw [State.indirect_setCc]
    rfl
  | nop off9 =>
    rw [exec_nop] at h ⊢
    cases h
    rfl
  | trapGetc => cases h; exact congrArg Host.Outcome.next (State.serviceGetc_setCc c)
  | trapIn => cases h; exact congrArg Host.Outcome.next (State.serviceIn_setCc c)
  | trapPuts | trapPutsp => cases h; exact congrArg Host.Outcome.next (State.stringService_setCc c _)
  | _ => cases h; rfl

end Sys2Proof.Machine

/-!
PROOFS. The memory family: the address sums; the two access primitives and the keyboard poll; which cells an
instruction writes; the string services as their loops; and what the producer's coming moves cannot reach.
-/

/-! ### The address sums, the two access primitives and the poll (rules R52, R54, R55, R57, R58) -/

namespace Sys2Proof.Machine

open Sys2Proof.Claims

variable {s : State}

/-- An offset is added as a signed integer, modulo the size of the address space (rules R52, R84). -/
theorem toNat_add_sext {n : Nat} (x : Word) (v : BitVec n) :
    ((x + sext v).toNat : Int) = (x.toNat + v.toInt) % 65536 := by
  have hv : (sext v).toNat = (v.toInt % (2 ^ 16 : Nat)).toNat := BitVec.toNat_ofInt v.toInt
  rw [BitVec.toNat_add, hv]
  omega

/-- Settles O4: each address is a word plus a sign-extended offset. -/
theorem effectiveAddressesWrap : Obligations.EffectiveAddressesWrap :=
  fun s baseR _ _ _ => ⟨toNat_add_sext s.pc _, toNat_add_sext s.pc _, toNat_add_sext (s.reg baseR) _⟩

/-- Settles O5: a read polls at the keyboard status cell and nowhere else. -/
theorem readHasOneSideEffect : Obligations.ReadHasOneSideEffect := by
  refine fun s a => ⟨State.memRead_of_ne, ?_⟩
  rintro rfl
  exact State.memRead_kbsr

/-- Settles O6, by the law of a read after a store. -/
theorem writeIsADirectStore : Obligations.WriteIsADirectStore :=
  fun _ a v hm => ⟨State.cell_setCell hm a v, fun _ => rfl, ⟨rfl, rfl, rfl⟩, ⟨rfl, rfl, rfl⟩, ⟨rfl, rfl, rfl⟩⟩

/-- Zero extension keeps the value of a key code. -/
theorem toNat_zext8 (k : Byte) : (zext8 k).toNat = k.toNat :=
  BitVec.toNat_setWidth_of_le (by decide)

/-- Settles O7: the poll writes the two keyboard cells and the mailbox, each as the laws of the poll say. -/
theorem pollMovesTheKey : Obligations.PollMovesTheKey := by
  intro s hm
  have hbsr := State.cell_kbdPoll_kbsr hm
  have hbdr := State.cell_kbdPoll_kbdr hm
  have hothers : ∀ a, a ≠ 0xFE00 → a ≠ 0xFE02 → s.kbdPoll.cell a = s.cell a :=
    fun a => State.cell_kbdPoll_ne hm
  have hkey : ∀ k, s.kbdSlot = some k → s.kbdPoll.kbdSlot = none ∧ s.kbdPoll.cell 0xFE00 = 0x8000 ∧
      (s.kbdPoll.cell 0xFE02).toNat = k.toNat := by
    intro k hk
    rw [hk] at hbsr hbdr
    exact ⟨State.kbdPoll_kbdSlot, hbsr, (congrArg BitVec.toNat hbdr).trans (toNat_zext8 k)⟩
  have hnone : s.kbdSlot = none → s.kbdPoll.kbdSlot = none ∧ s.kbdPoll.cell 0xFE00 = 0 ∧
      s.kbdPoll.cell 0xFE02 = s.cell 0xFE02 := by
    intro hk
    rw [hk] at hbsr hbdr
    exact ⟨State.kbdPoll_kbdSlot, hbsr, hbdr⟩
  obtain ⟨m, slot, hp⟩ := s.kbdPoll_frame
  refine ⟨?_, ?_, ?_, ?_, ?_, hothers, hkey, hnone⟩ <;> rw [hp]
  · exact fun _ => rfl
  · exact ⟨rfl, rfl, rfl⟩
  · exact ⟨rfl, rfl, rfl⟩

/-- A read of the keyboard data cell has no side effect. -/
theorem State.memRead_kbdr : s.memRead Config.kbdr = (s.cell Config.kbdr, s) :=
  State.memRead_of_ne (by decide)

/-- Settles O8: the first poll empties the mailbox, so the second finds no key, and a poll that finds none keeps
the data cell. -/
theorem keyReportedByOneRead : Obligations.KeyReportedByOneRead := by
  intro s k hm hk
  have hslot : s.kbdPoll.kbdSlot = none := State.kbdPoll_kbdSlot
  have hm' : Memory.wf s.kbdPoll.mem := State.kbdPoll_wf hm
  have hcode : s.kbdPoll.cell Config.kbdr = zext8 k := by rw [State.cell_kbdPoll_kbdr hm, hk]; rfl
  have hcode' : s.kbdPoll.kbdPoll.cell Config.kbdr = zext8 k := by
    rw [State.cell_kbdPoll_kbdr hm', hslot]; exact hcode
  have hread : s.kbdPoll.cell Config.kbsr = 0x8000 := by rw [State.cell_kbdPoll_kbsr hm, hk]; rfl
  have hread' : s.kbdPoll.kbdPoll.cell Config.kbsr = 0 := by rw [State.cell_kbdPoll_kbsr hm', hslot]; rfl
  exact ⟨s.kbdPoll, s.kbdPoll.kbdPoll, hread ▸ State.memRead_kbsr, hslot, hcode ▸ State.memRead_kbdr,
    hread' ▸ State.memRead_kbsr, hcode' ▸ State.memRead_kbdr⟩

end Sys2Proof.Machine

/-! ### The cells an instruction writes (rules R54 to R56, R67, R161, R192) -/

namespace Sys2Proof

open Sys2Proof.Machine Sys2Proof.Claims

/-- A `TRAP` term stores where its row does: nowhere. -/
theorem storesTo_refine (i : Instr) (s : State) : storesTo s (refine i) = storesTo s i := by
  cases i
  case trap v =>
    show storesTo s (trapRow v) = none
    unfold trapRow
    split_ifs <;> rfl
  all_goals rfl

/-- A `TRAP` term reads memory where its row does. -/
theorem readsMemory_refine (i : Instr) : readsMemory (refine i) = readsMemory i := by
  cases i
  case trap v =>
    show readsMemory (trapRow v) = (v == 0x22 || v == 0x24)
    unfold trapRow
    split_ifs <;> simp_all [readsMemory]
  all_goals rfl

end Sys2Proof

namespace Sys2Proof.Machine

open Sys2Proof.Claims

variable {s t u : State} {i : Instr} {a : Word}

/-- The data reads of an instruction change the two keyboard cells at most. -/
theorem ReadsOf.cell (h : ReadsOf i s u) (hm : Memory.wf s.mem)
    (ha : readsMemory i = true → a ≠ Config.kbsr ∧ a ≠ Config.kbdr) : u.cell a = s.cell a := by
  induction h with
  | none => rfl
  | read b hi hu ih =>
    obtain ⟨h1, h2⟩ := ha hi
    exact (State.cell_memRead_ne (hu.wf hm) h1 h2).trans ih

/-- An effect changes no cell but the one it stores to and, where it reads memory, the two keyboard cells. -/
theorem Effect.cell (h : Effect s i t) (hm : Memory.wf s.mem) (hst : storesTo s i ≠ some a)
    (ha : readsMemory i = true → a ≠ Config.kbsr ∧ a ≠ Config.kbdr) : t.cell a = s.cell a := by
  cases h with
  | result v _ _ hu => exact hu.cell hm ha
  | @store _ u b v hb _ hu =>
    have hne : a ≠ b := fun e => hst (e ▸ hb)
    rw [State.memWrite, State.cell_setCell (hu.wf hm), if_neg hne, hu.cell hm ha]
  | puts | putsp =>
    obtain ⟨h1, h2⟩ := ha rfl
    exact State.cell_stringService_ne hm _ h1 h2
  | _ => rfl

/-- Settles O47, by the effect of the instruction. -/
theorem memoryWriters : Obligations.MemoryWriters := by
  intro i s t hm h a hst ha
  rw [← storesTo_refine] at hst
  rw [← readsMemory_refine] at ha
  exact (exec_effect h).cell hm hst ha

/-- An instruction that stores a word at the advanced counter, not the keyboard status cell, is followed by a
fetch of that word. -/
theorem nextFetches_of_store {v : Word} (hr : s.status = .running) (hw : s.walk = none)
    (hx : exec (decode s.fetch.1) s.fetch.2 = .next (u.memWrite (s.pc + 1) v)) (hm : Memory.wf u.mem)
    (hpc : u.pc = s.pc + 1) (hne : s.pc + 1 ≠ Config.kbsr) : NextFetches s v := by
  refine ⟨_, step_of_exec hr hw hx, by simpa using hpc, ?_⟩
  have hpc' : (u.memWrite (s.pc + 1) v).keyboardMove.pc = s.pc + 1 := by simpa using hpc
  rw [State.fetch_eq, hpc', State.memRead_of_ne hne, State.cell, State.keyboardMove_mem]
  exact (State.cell_setCell hm _ _ _).trans (if_pos rfl)

/-- Settles O50: the three stores are plain stores in a state whose counter the fetch has advanced; the pointer
read of `STI` keeps the counter and the register stored. -/
theorem storeSeenByNextFetch : Obligations.StoreSeenByNextFetch := by
  intro s sr baseR off6 off9 hm hr hw hne
  have hm' : Memory.wf s.fetch.2.mem := State.fetch_wf hm
  have hreg : s.fetch.2.reg sr = s.reg sr := State.reg_fetch sr
  refine ⟨fun hd ha => ?_, fun hd ha => ?_, fun hd ha => ?_⟩
  · refine nextFetches_of_store hr hw ?_ hm' rfl hne
    rw [hd, ← ha, ← hreg]; rfl
  · refine nextFetches_of_store (u := (s.fetch.2.indirect off9).2) hr hw ?_ (State.memRead_wf hm' _)
      (State.memRead_pc _) hne
    have hreg' : (s.fetch.2.indirect off9).2.reg sr = s.reg sr := (State.reg_memRead _ sr).trans hreg
    rw [hd, ← ha, ← hreg']; rfl
  · refine nextFetches_of_store hr hw ?_ hm' rfl hne
    rw [hd, ← ha, ← hreg]; rfl

end Sys2Proof.Machine

/-! ### The string services as their loops (rules R57, R69, R191, R198, R202) -/

namespace Sys2Proof.Machine

open Sys2Proof.Claims

variable {s t u : State} {a : Word} {w : Walk} {n : Nat}

/-- A walk of `PUTS` that ends is the loop of rule R198, ended within the walk's reads. -/
theorem putsWalk_ended_iff : stringWalk .puts n a s = (false, t) ↔ ∃ m ≤ n, PutsRun m s a t := by
  constructor
  · intro h
    induction n generalizing a s with
    | zero => cases h
    | succ n ih =>
      by_cases hz : (s.memRead a).1 = 0
      · rw [stringWalk_stop (State.putsCell_stop hz)] at h
        cases h
        exact ⟨1, by omega, .stop s a hz⟩
      · rw [stringWalk_go (State.putsCell_send hz)] at h
        obtain ⟨m, hm, hrun⟩ := ih h
        exact ⟨m + 1, by omega, .send m s a t hz hrun⟩
  · rintro ⟨m, hm, hrun⟩
    induction hrun generalizing n with
    | stop s a hz =>
      obtain ⟨n, rfl⟩ := Nat.exists_eq_add_of_le' hm
      exact stringWalk_stop (State.putsCell_stop hz) n
    | send m s a t hz _ ih =>
      obtain ⟨n, rfl⟩ := Nat.exists_eq_add_of_le' (Nat.le_of_add_left_le hm : 1 ≤ n)
      rw [stringWalk_go (State.putsCell_send hz)]
      exact ih (by omega)

/-- A walk of `PUTS` that does not end is so many reads of the loop of rule R198. -/
theorem putsWalk_goesOn_iff : stringWalk .puts n a s = (true, t) ↔ PutsTurn n s a t := by
  constructor
  · intro h
    induction n generalizing a s with
    | zero => cases h; exact .none _ _
    | succ n ih =>
      obtain ⟨hz, e⟩ := putsWalk_true (congrArg Prod.fst h)
      exact .send n s a t hz (ih (e ▸ h))
  · intro h
    induction h with
    | none => rfl
    | send n s a t hz _ ih => rw [stringWalk_go (State.putsCell_send hz)]; exact ih

/-- A turn of `PUTS` that ends, as the loop. -/
theorem State.putsTurn_ended_iff :
    s.stringTurn ⟨.puts, a⟩ = (false, t) ↔ ∃ m ≤ 65536, PutsRun m s a t := putsWalk_ended_iff

/-- A turn of `PUTS` that does not end, as the loop. -/
theorem State.putsTurn_goesOn_iff : s.stringTurn ⟨.puts, a⟩ = (true, t) ↔ PutsTurn 65536 s a t :=
  putsWalk_goesOn_iff

/-- A walk of `PUTSP` that ends is the loop of rule R202, ended within the walk's reads. -/
theorem putspRun_of_walk (h : stringWalk .putsp n a s = (false, t)) : ∃ m ≤ n, PutspRun m s a t := by
  induction n generalizing a s with
  | zero => cases h
  | succ n ih =>
    by_cases hl : lowByte (s.memRead a).1 = 0
    · rw [stringWalk_stop (State.putspCell_stopLow hl)] at h
      cases h
      exact ⟨1, by omega, .stopLow s a hl⟩
    · by_cases hh : highByte (s.memRead a).1 = 0
      · rw [stringWalk_stop (State.putspCell_stopHigh hl hh)] at h
        cases h
        exact ⟨1, by omega, .stopHigh s a hl hh⟩
      · rw [stringWalk_go (State.putspCell_send hl hh)] at h
        obtain ⟨m, hm, hrun⟩ := ih h
        exact ⟨m + 1, by omega, .send m s a t hl hh hrun⟩

/-- Settles O32: a turn of `PUTSP` polls, and so ends; it is the loop of rule R202. -/
theorem putspAlwaysEnds : Obligations.PutspAlwaysEnds := by
  intro s hm hw
  have hend : (s.stringTurn ⟨.putsp, s.reg 0⟩).1 = false := putspWalk_ends hm (turn_meets _ _)
  obtain ⟨n, hn, hrun⟩ := putspRun_of_walk (t := (s.stringTurn ⟨.putsp, s.reg 0⟩).2) (Prod.ext hend rfl)
  exact ⟨n, _, hn, hrun, congrArg Host.Outcome.next (State.servicePutsp_eq hm), (State.stringTurn_walk _).trans hw,
    fun r => congrArg (·[r.toNat]'r.isLt) (State.stringTurn_regs _),
    ⟨State.stringTurn_pc _, State.stringTurn_cc _, State.stringTurn_status _⟩⟩

/-- Where the loop goes on, the rest of it follows. -/
theorem goOn_of_goesOn {r : Bool × State} (h : r.1 = true) (next : State → Bool × State) :
    goOn r next = next r.2 := by rw [goOn, if_pos h]

/-- Where the loop has ended, nothing follows. -/
theorem goOn_of_ended {r : Bool × State} (h : r.1 = false) (next : State → Bool × State) : goOn r next = r := by
  rw [goOn, h]; rfl

/-- A service whose first turn ends is that turn. -/
theorem State.serviceTurns_of_ended (h : s.stringTurn w = (false, t)) : s.serviceTurns w = (false, t) := by
  rw [State.serviceTurns, h]; rfl

/-- A turn before which the producer's move is given, and then the other turns with given moves. -/
theorem State.givenTurns_eq (hk : s.keys ≠ []) :
    s.givenTurns w = goOn (s.producerMove.stringTurn w) (State.givenTurns · w) := by
  obtain ⟨k, ks, hks⟩ := List.exists_cons_of_ne_nil hk
  rw [State.givenTurns, hks]
  show goOn (s.producerMove.stringTurn w) (moreTurns w _ ks) = _
  rw [goOn, goOn]
  split
  · rw [State.givenTurns, State.stringTurn_keys, State.producerMove_keys, hks]; rfl
  · rfl

/-- After a turn that does not end, a service with a move of the producer given goes on as the service that
starts after that move. -/
theorem State.serviceTurns_of_goesOn (h : s.stringTurn w = (true, u)) (hk : u.keys ≠ []) :
    s.serviceTurns w = u.producerMove.serviceTurns w := by
  rw [State.serviceTurns, h]
  show goOn (u.givenTurns w) (State.freeTurns · w) = _
  rw [State.givenTurns_eq hk]
  rfl

/-- The turns of a service end where the loop with the given moves does (rules R69, R198). -/
theorem serviceTurns_of_putsService (h : PutsService s a t) : s.serviceTurns ⟨.puts, a⟩ = (false, t) := by
  induction h with
  | last n s a t hn hrun => exact State.serviceTurns_of_ended (State.putsTurn_ended_iff.mpr ⟨n, hn, hrun⟩)
  | turn s u a t hturn hk _ ih => exact (State.serviceTurns_of_goesOn (State.putsTurn_goesOn_iff.mpr hturn) hk).trans ih

end Sys2Proof.Machine

/-! ### The producer's coming moves: reads and turns do not look at them (rules R61, R69) -/

namespace Sys2Proof.Machine

open Sys2Proof.Claims

variable {s t u : State} {w : Walk} {i : Instr} (ks : List (Option Byte)) (d : Nat)

/-- The state with other coming moves of the producer: its given moves, and its count of draws. -/
def State.setMoves (s : State) (ks : List (Option Byte)) (d : Nat) : State := { s with keys := ks, draws := d }

/-- A poll does not look at the coming moves. -/
theorem State.kbdPoll_setMoves : (s.setMoves ks d).kbdPoll = s.kbdPoll.setMoves ks d := by
  rcases hk : s.kbdSlot with _ | k
  · rw [State.kbdPoll_none hk, State.kbdPoll_none (s := s.setMoves ks d) hk]; rfl
  · rw [State.kbdPoll_some hk, State.kbdPoll_some (s := s.setMoves ks d) hk]; rfl

/-- A read does not look at the coming moves. -/
theorem State.memRead_setMoves (a : Word) :
    (s.setMoves ks d).memRead a = ((s.memRead a).1, (s.memRead a).2.setMoves ks d) := by
  by_cases ha : a = Config.kbsr
  · rw [ha, State.memRead_kbsr, State.memRead_kbsr, State.kbdPoll_setMoves]; rfl
  · rw [State.memRead_of_ne ha, State.memRead_of_ne ha]; rfl

/-- A read of the loop of a string service does not look at the coming moves. -/
theorem State.stringCell_setMoves (kind : StringKind) (a : Word) : (s.setMoves ks d).stringCell kind a =
    ((s.stringCell kind a).1, (s.stringCell kind a).2.setMoves ks d) := by
  cases kind
  · simp only [State.stringCell, State.putsCell, State.memRead_setMoves]
    split <;> rfl
  · simp only [State.stringCell, State.putspCell, State.memRead_setMoves]
    split_ifs <;> rfl

/-- A turn does not look at the coming moves. -/
theorem State.stringTurn_setMoves (w : Walk) :
    (s.setMoves ks d).stringTurn w = ((s.stringTurn w).1, (s.stringTurn w).2.setMoves ks d) :=
  stringWalk_map (f := (State.setMoves · ks d)) (fun _ _ => State.stringCell_setMoves ks d w.kind _) _ _

end Sys2Proof.Machine

/-! ### A `PUTS` that is done has the keys of some run between its turns (rules R69, R191) -/

namespace Sys2Proof.Machine

open Sys2Proof.Claims

variable {s t u v : State} {a : Word} {w : Walk} {ks : List (Option Byte)}

/-- More turns of a service, with these arrivals before them (rule R69). -/
def State.arrivalTurns (s : State) (w : Walk) (ks : List (Option Byte)) : Bool × State :=
  moreTurns w (fun k t => t.arrive k) ks s

/-- Turns with some arrivals, then turns with some others. -/
theorem State.arrivalTurns_append (ks ks' : List (Option Byte)) :
    s.arrivalTurns w (ks ++ ks') = goOn (s.arrivalTurns w ks) (State.arrivalTurns · w ks') := by
  induction ks generalizing s with
  | nil => rfl
  | cons k ks ih =>
    show goOn ((s.arrive k).stringTurn w) (State.arrivalTurns · w (ks ++ ks')) =
      goOn (goOn ((s.arrive k).stringTurn w) (State.arrivalTurns · w ks)) _
    rcases hr : ((s.arrive k).stringTurn w).1 with _ | _
    · rw [goOn_of_ended hr, goOn_of_ended hr, goOn_of_ended hr]
    · rw [goOn_of_goesOn hr, goOn_of_goesOn hr, ih]

/-- Turns with some arrivals do not look at the coming moves. -/
theorem State.arrivalTurns_setMoves (ms : List (Option Byte)) (d : Nat) : (s.setMoves ms d).arrivalTurns w ks =
    ((s.arrivalTurns w ks).1, (s.arrivalTurns w ks).2.setMoves ms d) :=
  moreTurns_map (f := (State.setMoves · ms d)) (move := fun k t => t.arrive k)
    (fun _ => State.stringTurn_setMoves ms d w) (fun _ _ => rfl) _

/-- `r` is what more turns from `s` leave for some arrivals, but for the producer's own fields. -/
def ArrivalTurns (w : Walk) (s : State) (r : Bool × State) : Prop :=
  ∃ ks ms d, r = ((s.arrivalTurns w ks).1, (s.arrivalTurns w ks).2.setMoves ms d)

/-- A change of the producer's own fields before the turns does not matter. -/
theorem ArrivalTurns.of_setMoves {r : Bool × State} {ms : List (Option Byte)} {d : Nat}
    (h : ArrivalTurns w (s.setMoves ms d) r) : ArrivalTurns w s r := by
  obtain ⟨ks, ms', d', rfl⟩ := h
  exact ⟨ks, ms', d', by rw [State.arrivalTurns_setMoves]; rfl⟩

/-- No turn. -/
theorem ArrivalTurns.nil : ArrivalTurns w s (true, s) := ⟨[], s.keys, s.draws, rfl⟩

/-- One turn, after some arrival or none and any change of the producer's own fields. -/
theorem ArrivalTurns.single (k : Option Byte) (ms : List (Option Byte)) (d : Nat) :
    ArrivalTurns w s (((s.arrive k).setMoves ms d).stringTurn w) := by
  have hsingle : s.arrivalTurns w [k] = (s.arrive k).stringTurn w := by
    show goOn ((s.arrive k).stringTurn w) (fun t => (true, t)) = _
    rw [goOn]
    split
    · next h => exact Prod.ext h.symm rfl
    · rfl
  exact ⟨[k], ms, d, by rw [State.stringTurn_setMoves, hsingle]⟩

/-- Some turns, and more turns where these do not end. -/
theorem ArrivalTurns.goOn {r : Bool × State} {next : State → Bool × State} (hr : ArrivalTurns w s r)
    (hnext : ∀ t, ArrivalTurns w t (next t)) : ArrivalTurns w s (goOn r next) := by
  obtain ⟨ks, ms, d, rfl⟩ := hr
  rcases hend : (s.arrivalTurns w ks).1 with _ | _
  · exact ⟨ks, ms, d, by rw [goOn_of_ended rfl, hend]⟩
  · obtain ⟨ks', ms', d', e⟩ := (hnext ((s.arrivalTurns w ks).2.setMoves ms d)).of_setMoves
    refine ⟨ks ++ ks', ms', d', ?_⟩
    rw [goOn_of_goesOn rfl, e, State.arrivalTurns_append, goOn_of_goesOn hend]

/-- More turns, each after a move that is an arrival, or none, and a change of the producer's own fields. -/
theorem ArrivalTurns.moreTurns {α : Type} {move : α → State → State}
    (hmove : ∀ k t, ∃ o ms d, move k t = (t.arrive o).setMoves ms d) (l : List α) :
    ArrivalTurns w s (moreTurns w move l s) := by
  induction l generalizing s with
  | nil => exact .nil
  | cons k l ih =>
    obtain ⟨o, ms, d, e⟩ := hmove k s
    refine ArrivalTurns.goOn ?_ fun t => ih
    rw [e]
    exact .single o ms d

/-- The turns with given moves and the turns after them are turns with some arrivals. -/
theorem State.arrivalTurns_of_service :
    ArrivalTurns w s (goOn (s.givenTurns w) (State.freeTurns · w)) := by
  refine .goOn (.moreTurns (fun _ t => ⟨t.arrival, _, _, rfl⟩) s.keys) fun t => ?_
  rw [State.freeTurns]
  split
  · next l _ =>
    exact .of_setMoves (ms := t.keys) (d := t.draws + 1)
      (.moreTurns (fun o t => ⟨o, t.keys, t.draws, rfl⟩) (l.map some ++ [none]))
  · exact .single _ t.keys (t.draws + 1)

/-- A turn that does not end and then turns with some arrivals that do are the loop of rule R198 for the arrivals
before its last turn. -/
theorem putsKeys_of_arrivalTurns (h : s.stringTurn ⟨.puts, a⟩ = (true, v))
    (hend : v.arrivalTurns ⟨.puts, a⟩ ks = (false, u)) : ∃ ks', PutsKeys ks' s a u := by
  induction ks generalizing s v with
  | nil => cases hend
  | cons k ks ih =>
    have hturn : PutsTurn 65536 s a v := State.putsTurn_goesOn_iff.mp h
    have hend : goOn ((v.arrive k).stringTurn ⟨.puts, a⟩) (State.arrivalTurns · ⟨.puts, a⟩ ks) = (false, u) := hend
    rcases hr : ((v.arrive k).stringTurn ⟨.puts, a⟩).1 with _ | _
    · rw [goOn_of_ended hr] at hend
      obtain ⟨n, hn, hrun⟩ := State.putsTurn_ended_iff.mp hend
      exact ⟨[k], .turn k [] s v a u hturn (.last n _ a u hn hrun)⟩
    · rw [goOn_of_goesOn hr] at hend
      obtain ⟨ks', hks⟩ := ih (Prod.ext hr rfl) hend
      exact ⟨k :: ks', .turn k ks' s v a u hturn hks⟩

/-- The turns of a `PUTS` that end are the loop of rule R198 for some keys between its turns, but for the
producer's own fields. -/
theorem putsKeys_of_serviceTurns (h : s.serviceTurns ⟨.puts, a⟩ = (false, t)) :
    ∃ ks u ms d, PutsKeys ks s a u ∧ t = u.setMoves ms d := by
  rcases hr : (s.stringTurn ⟨.puts, a⟩).1 with _ | _
  · rw [State.serviceTurns_of_ended (Prod.ext hr rfl)] at h
    obtain ⟨n, hn, hrun⟩ := State.putsTurn_ended_iff.mp (Prod.ext hr (Prod.ext_iff.mp h).2)
    exact ⟨[], t, t.keys, t.draws, .last n s a t hn hrun, rfl⟩
  · rw [State.serviceTurns, goOn_of_goesOn hr] at h
    obtain ⟨ks, ms, d, e⟩ := State.arrivalTurns_of_service (s := (s.stringTurn ⟨.puts, a⟩).2) (w := ⟨.puts, a⟩)
    obtain ⟨hend, ht⟩ := Prod.ext_iff.mp (h.symm.trans e)
    obtain ⟨ks', hks⟩ := putsKeys_of_arrivalTurns (u := (State.arrivalTurns _ _ ks).2) (Prod.ext hr rfl)
      (Prod.ext hend.symm rfl)
    exact ⟨ks', _, ms, d, hks, ht⟩

/-- Settles O33: the turns of a service are the loop of rule R198 with the producer's moves between its turns, and
a service that is done has ended its turns. -/
theorem putsIsOneStep : Obligations.PutsIsOneStep := by
  refine ⟨fun s t h => ?_, fun s t _ h _ ht => ?_⟩
  · exact congrArg (Host.Outcome.next ∘ leaveService _) (serviceTurns_of_putsService h)
  · cases h
    rcases hr : (s.serviceTurns ⟨.puts, s.reg 0⟩).1 with _ | _
    · have e : s.servicePuts = (s.serviceTurns ⟨.puts, s.reg 0⟩).2 := leaveService_of_ended hr
      obtain ⟨ks, u, ms, d, hks, hu⟩ := putsKeys_of_serviceTurns (t := s.servicePuts) (Prod.ext hr e.symm)
      refine ⟨ks, u, hks, ?_⟩
      rw [hu]
      rfl
    · have e : s.servicePuts = _ := leaveService_of_goesOn hr
      rw [e] at ht
      cases ht

end Sys2Proof.Machine

/-! ### The producer's coming moves reach the mailbox only (rules R61, R69) -/

namespace Sys2Proof.Machine

open Sys2Proof.Claims

variable {s t u : State} {w : Walk} {i : Instr} (ks : List (Option Byte)) (d : Nat)

/-- A branch does not look at the coming moves. -/
theorem State.branchIf_setMoves (taken : Bool) (off9 : BitVec 9) :
    (s.setMoves ks d).branchIf taken off9 = (s.branchIf taken off9).setMoves ks d := by
  rw [State.branchIf_eq, State.branchIf_eq]; rfl

/-- A load does not look at the coming moves. -/
theorem State.loadFrom_setMoves (dr : RegId) (ea : Word) :
    (s.setMoves ks d).loadFrom dr ea = (s.loadFrom dr ea).setMoves ks d := by
  rw [State.loadFrom, State.memRead_setMoves]; rfl

/-- The pointer read does not look at the coming moves. -/
theorem State.indirect_setMoves (off9 : BitVec 9) :
    (s.setMoves ks d).indirect off9 = ((s.indirect off9).1, (s.indirect off9).2.setMoves ks d) :=
  State.memRead_setMoves ks d _

/-- The fetch does not look at the coming moves. -/
theorem State.fetch_setMoves : (s.setMoves ks d).fetch = (s.fetch.1, s.fetch.2.setMoves ks d) := by
  rw [State.fetch, State.memRead_setMoves]; rfl

/-- `GETC` does not look at the coming moves. -/
theorem State.serviceGetc_setMoves : (s.setMoves ks d).serviceGetc = s.serviceGetc.setMoves ks d := by
  rcases hk : s.kbdSlot with _ | k
  · rw [State.serviceGetc_none hk, State.serviceGetc_none (s := s.setMoves ks d) hk]; rfl
  · rw [State.serviceGetc_some hk, State.serviceGetc_some (s := s.setMoves ks d) hk]; rfl

/-- `IN` does not look at the coming moves. -/
theorem State.serviceIn_setMoves : (s.setMoves ks d).serviceIn = s.serviceIn.setMoves ks d := by
  rcases hk : s.kbdSlot with _ | k
  · rw [State.serviceIn_none hk, State.serviceIn_none (s := s.setMoves ks d) hk]; rfl
  · rw [State.serviceIn_some hk, State.serviceIn_some (s := s.setMoves ks d) hk]; rfl

/-- A string service that ends in its first turn does not look at the coming moves. -/
theorem State.stringService_setMoves (h : (s.stringTurn w).1 = false) :
    (s.setMoves ks d).stringService w = (s.stringService w).setMoves ks d := by
  rw [State.stringService_of_ends (Prod.ext h rfl)]
  exact State.stringService_of_ends (by rw [State.stringTurn_setMoves, h])

/-- A turn of a service that never ends does not look at the coming moves. -/
theorem State.resumeWalk_setMoves (w : Walk) :
    (s.setMoves ks d).resumeWalk w = (s.resumeWalk w).setMoves ks d := by
  have hturn : ((s.setMoves ks d).setWalk none).stringTurn w = _ :=
    State.stringTurn_setMoves (s := s.setWalk none) ks d w
  rw [State.resumeWalk, hturn, State.resumeWalk, leaveService, leaveService]
  split <;> rfl

/-- No instruction looks at the coming moves, but a `PUTS` that does not end in its first turn. -/
theorem exec_setMoves (hm : Memory.wf s.mem)
    (hputs : refine i = .trapPuts → (s.stringTurn ⟨.puts, s.reg 0⟩).1 = false) (h : exec i s = .next t) :
    exec i (s.setMoves ks d) = .next (t.setMoves ks d) := by
  rw [← exec_refine] at h ⊢
  have hne : ∀ v, refine i ≠ .trap v := refine_ne_trap i
  generalize refine i = j at h hne hputs ⊢
  cases j with
  | trap v => exact absurd rfl (hne v)
  | br => cases h; exact congrArg Host.Outcome.next (State.branchIf_setMoves ks d _ _)
  | nop off9 =>
    rw [exec_nop] at h ⊢
    cases h
    rfl
  | ld | ldr => cases h; exact congrArg Host.Outcome.next (State.loadFrom_setMoves ks d _ _)
  | ldi dr off9 =>
    cases h
    show Host.Outcome.next (State.loadFrom (State.indirect _ off9).2 dr (State.indirect _ off9).1) = _
    rw [State.indirect_setMoves, State.loadFrom_setMoves]
  | sti sr off9 =>
    cases h
    show Host.Outcome.next (State.storeTo (State.indirect _ off9).2 sr (State.indirect _ off9).1) = _
    rw [State.indirect_setMoves]
    rfl
  | trapGetc => cases h; exact congrArg Host.Outcome.next (State.serviceGetc_setMoves ks d)
  | trapIn => cases h; exact congrArg Host.Outcome.next (State.serviceIn_setMoves ks d)
  | trapPuts => cases h; exact congrArg Host.Outcome.next (State.stringService_setMoves ks d (hputs rfl))
  | trapPutsp =>
    cases h
    exact congrArg Host.Outcome.next (State.stringService_setMoves ks d (putspWalk_ends hm (turn_meets _ _)))
  | _ => cases h; rfl

/-- The core's step does not look at the coming moves, unless it is a `PUTS` that does not end in its first turn. -/
theorem coreStep_setMoves (hm : Memory.wf s.mem)
    (hputs : s.walk = none → decode s.fetch.1 = .trapPuts →
      (s.fetch.2.stringTurn ⟨.puts, s.fetch.2.reg 0⟩).1 = false) (h : coreStep s = .next u) :
    coreStep (s.setMoves ks d) = .next (u.setMoves ks d) := by
  rcases hw : s.walk with _ | w
  · rw [coreStep_of_fetch hw] at h
    rw [coreStep_of_fetch (s := s.setMoves ks d) hw, State.fetch_setMoves]
    exact exec_setMoves ks d (State.fetch_wf hm) (fun hi => hputs hw ((refine_decode _).symm.trans hi)) h
  · rw [coreStep_of_walk hw] at h
    cases h
    rw [coreStep_of_walk (s := s.setMoves ks d) hw, State.resumeWalk_setMoves]

/-- A running core's step is the core's and then the producer's move. -/
theorem coreStep_of_step (hr : s.status = .running) (h : step s = .next t) :
    ∃ u, coreStep s = .next u ∧ t = u.keyboardMove := by
  rw [step, hr] at h
  dsimp only at h
  split at h
  · next u hu => cases h; exact ⟨u, hu, rfl⟩
  · cases h
  · cases h

/-- Settles O60: the core's step commutes with a change of the coming moves, and the producer's move after it
changes the mailbox and the producer's own fields only. -/
theorem producerCannotReachTheCore : Obligations.ProducerCannotReachTheCore := by
  intro s t ks d hm h hputs
  show ∃ t', step (s.setMoves ks d) = .next t' ∧ _
  by_cases hr : s.status = .running
  · obtain ⟨u, hu, rfl⟩ := coreStep_of_step hr h
    have hcore : coreStep (s.setMoves ks d) = .next (u.setMoves ks d) := by
      refine coreStep_setMoves ks d hm (fun hw hd => ?_) hu
      obtain ⟨n, v, hn, hrun⟩ := hputs hw hd
      have hturn : s.fetch.2.stringTurn ⟨.puts, s.reg 0⟩ = (false, v) := State.putsTurn_ended_iff.mpr ⟨n, hn, hrun⟩
      rw [State.reg_fetch, hturn]
    refine ⟨_, step_of_running (s := s.setMoves ks d) hr hcore, ?_⟩
    obtain ⟨k, ms, e, hmove⟩ := u.keyboardMove_frame
    obtain ⟨k', ms', e', hmove'⟩ := (u.setMoves ks d).keyboardMove_frame
    rw [hmove, hmove']
    rfl
  · rw [step_of_stopped hr] at h
    cases h
    exact ⟨_, step_of_stopped (s := s.setMoves ks d) hr, rfl⟩

end Sys2Proof.Machine

/-!
PROOFS. The encoding family: the fields of a word put together from fields; the opcode map of rule R91 as a relation
between words and instructions, and the decoder as that relation; the encoder against the ignored bits; and the
statements about the decoder, the encoder, sign extension and the aliases.
-/

/-! ### The fields of a word (rules R82, R83) -/

namespace Sys2Proof

open Sys2Proof.Machine Sys2Proof.Claims Sys2Proof.Laws.OpcodeField

/-- Two neighbouring fields are one longer field. -/
theorem field_append_field (ir : Word) {lo m hi n : Nat} (h : lo + m = hi) :
    field ir hi n ++ field ir lo m = field ir lo (n + m) :=
  BitVec.extractLsb'_append_extractLsb'_eq_extractLsb' h.symm

/-- A bit is the field of length 1 at its place. -/
theorem ofBool_getLsbD (ir : Word) (i : Nat) : BitVec.ofBool (ir.getLsbD i) = field ir i 1 := by
  refine BitVec.eq_of_getLsbD_eq fun j hj => ?_
  obtain rfl : j = 0 := by omega
  simp [field]

/-- The mode bit of `ADD` and `AND`, as the top of the six low bits. -/
theorem getLsbD_five (ir : Word) : ir.getLsbD 5 = (field ir 0 6).getLsbD 5 := by
  simp [field]

/-- The mode bit of `JSR` and `JSRR`, as the top of the field above bit 8. -/
theorem getLsbD_eleven (ir : Word) : ir.getLsbD 11 = (fieldDR ir).getLsbD 2 := by
  simp [fieldDR, field]

/-- A word is its opcode, its register field and the nine bits below it. -/
theorem encodePcr_fields (ir : Word) : encodePcr (op4 ir) (fieldDR ir) (field ir 0 9) = ir := by
  rw [encodePcr, fieldDR, field_append_field ir (rfl : 0 + 9 = 9)]
  exact op4_append_field ir

/-- A word is its opcode, its two register fields and the six bits below them. -/
theorem encodeRegs_fields (ir : Word) : encodeRegs (op4 ir) (fieldDR ir) (fieldBase ir) (field ir 0 6) = ir := by
  rw [encodeRegs, fieldBase, field_append_field ir (rfl : 0 + 6 = 6)]
  exact encodePcr_fields ir

/-- A word is its opcode, the condition bits and the nine bits below them. -/
theorem encodeBr_fields (ir : Word) (h : op4 ir = 0x0) :
    encodeBr (ir.getLsbD 11) (ir.getLsbD 10) (ir.getLsbD 9) (field ir 0 9) = ir := by
  rw [encodeBr, ofBool_getLsbD, ofBool_getLsbD, ofBool_getLsbD, field_append_field ir (rfl : 0 + 9 = 9),
    field_append_field ir (rfl : 0 + 10 = 10), field_append_field ir (rfl : 0 + 11 = 11)]
  exact h ▸ op4_append_field ir

/-- A mask is put on a word field by field. -/
theorem and_encodeRegs (ir : Word) (op : BitVec 4) (dr base : RegId) (low6 : BitVec 6) :
    ir &&& encodeRegs op dr base low6 =
      encodeRegs (op4 ir &&& op) (fieldDR ir &&& dr) (fieldBase ir &&& base) (field ir 0 6 &&& low6) := by
  conv_lhs => rw [← encodeRegs_fields ir]
  simp only [encodeRegs]
  exact BitVec.and_append.trans (congrArg _ (BitVec.and_append.trans (congrArg _ BitVec.and_append)))

/-- Two words are joined field by field. -/
theorem encodeRegs_or (op op' : BitVec 4) (dr dr' base base' : RegId) (low6 low6' : BitVec 6) :
    encodeRegs op dr base low6 ||| encodeRegs op' dr' base' low6' =
      encodeRegs (op ||| op') (dr ||| dr') (base ||| base') (low6 ||| low6') :=
  BitVec.or_append.trans (congrArg _ (BitVec.or_append.trans (congrArg _ BitVec.or_append)))

section
variable (op : BitVec 4) (dr base : RegId) (low6 : BitVec 6) (off9 : BitVec 9) (x : BitVec 12)

@[simp] theorem op4_append : op4 (op ++ x) = op := top_of_append _ _
@[simp] theorem op4_encodeRegs : op4 (encodeRegs op dr base low6) = op := top_of_append _ _
@[simp] theorem op4_encodePcr : op4 (encodePcr op dr off9) = op := top_of_append _ _

/-- The low bits of a word are the low bits of what stands below its opcode. -/
theorem field_append_low {n : Nat} (h : n ≤ 12) : field (op ++ x) 0 n = x.extractLsb' 0 n :=
  BitVec.extractLsb'_append_eq_of_add_le (by omega)

@[simp] theorem field_append : field (op ++ x) 0 12 = x := BitVec.extractLsb'_append_eq_right

@[simp] theorem fieldDR_encodePcr : fieldDR (encodePcr op dr off9) = dr := by
  have h : (encodePcr op dr off9).extractLsb' 9 3 = (dr ++ off9).extractLsb' 9 3 :=
    BitVec.extractLsb'_append_eq_of_add_le (by omega)
  exact h.trans BitVec.extractLsb'_append_eq_left

@[simp] theorem field_encodePcr : field (encodePcr op dr off9) 0 9 = off9 :=
  (field_append_low _ _ (by omega)).trans BitVec.extractLsb'_append_eq_right

@[simp] theorem fieldDR_encodeRegs : fieldDR (encodeRegs op dr base low6) = dr :=
  fieldDR_encodePcr op dr (base ++ low6)

@[simp] theorem fieldBase_encodeRegs : fieldBase (encodeRegs op dr base low6) = base := by
  calc field (encodeRegs op dr base low6) 6 3
      = (dr ++ (base ++ low6)).extractLsb' 6 3 := BitVec.extractLsb'_append_eq_of_add_le (by omega)
    _ = (base ++ low6).extractLsb' 6 3 := BitVec.extractLsb'_append_eq_of_add_le (by omega)
    _ = base := BitVec.extractLsb'_append_eq_left

/-- The low bits of a word of four fields are those of its lowest field. -/
theorem field_encodeRegs_low {n : Nat} (h : n ≤ 6) :
    field (encodeRegs op dr base low6) 0 n = low6.extractLsb' 0 n := by
  calc field (encodeRegs op dr base low6) 0 n
      = (dr ++ (base ++ low6)).extractLsb' 0 n := field_append_low _ _ (by omega)
    _ = (base ++ low6).extractLsb' 0 n := BitVec.extractLsb'_append_eq_of_add_le (by omega)
    _ = low6.extractLsb' 0 n := BitVec.extractLsb'_append_eq_of_add_le (by omega)

@[simp] theorem field_encodeRegs : field (encodeRegs op dr base low6) 0 6 = low6 :=
  (field_encodeRegs_low _ _ _ _ le_rfl).trans BitVec.extractLsb'_eq_self

@[simp] theorem fieldSR2_encodeRegs (x sr2 : BitVec 3) : fieldSR2 (encodeRegs op dr base (x ++ sr2)) = sr2 :=
  (field_encodeRegs_low _ _ _ _ (by omega)).trans BitVec.extractLsb'_append_eq_right

@[simp] theorem imm5_encodeRegs (x : BitVec 1) (imm5 : BitVec 5) :
    field (encodeRegs op dr base (x ++ imm5)) 0 5 = imm5 :=
  (field_encodeRegs_low _ _ _ _ (by omega)).trans BitVec.extractLsb'_append_eq_right

/-- Bit 5 of a word of four fields is the top bit of its lowest field. -/
theorem modeBit_encodeRegs : (encodeRegs op dr base low6).getLsbD 5 = low6.getLsbD 5 := by
  rw [getLsbD_five, field_encodeRegs]

/-- The mode bit of a word with a second register (format OPR). -/
theorem modeBit_reg (sr2 : RegId) : (encodeRegs op dr base ((0 : BitVec 3) ++ sr2)).getLsbD 5 = false := by
  rw [modeBit_encodeRegs]
  exact BitVec.getLsbD_append.trans rfl

/-- The mode bit of a word with an immediate (format OPI). -/
theorem modeBit_imm (imm5 : BitVec 5) : (encodeRegs op dr base ((1 : BitVec 1) ++ imm5)).getLsbD 5 = true := by
  rw [modeBit_encodeRegs]
  exact BitVec.getLsbD_append.trans rfl

end

end Sys2Proof

/-! ### The opcode map (rules R82, R83, R91) -/

namespace Sys2Proof

open Sys2Proof.Machine Sys2Proof.Claims Sys2Proof.Laws.OpcodeField

variable {ir : Word} {i : Instr}

/-- The lines of the opcode map of rule R91: what a word is, by its opcode and its mode bit. -/
inductive MapLine (ir : Word) : Instr → Prop where
  | br (h : op4 ir = 0x0) : MapLine ir (.br (ir.getLsbD 11) (ir.getLsbD 10) (ir.getLsbD 9) (field ir 0 9))
  | addReg (h : op4 ir = 0x1) (hm : ir.getLsbD 5 = false) :
      MapLine ir (.addReg (fieldDR ir) (fieldBase ir) (fieldSR2 ir))
  | addImm (h : op4 ir = 0x1) (hm : ir.getLsbD 5 = true) :
      MapLine ir (.addImm (fieldDR ir) (fieldBase ir) (field ir 0 5))
  | ld (h : op4 ir = 0x2) : MapLine ir (.ld (fieldDR ir) (field ir 0 9))
  | st (h : op4 ir = 0x3) : MapLine ir (.st (fieldDR ir) (field ir 0 9))
  | jsr (h : op4 ir = 0x4) (hm : ir.getLsbD 11 = true) : MapLine ir (.jsr (field ir 0 11))
  | jsrr (h : op4 ir = 0x4) (hm : ir.getLsbD 11 = false) : MapLine ir (.jsrr (fieldBase ir))
  | andReg (h : op4 ir = 0x5) (hm : ir.getLsbD 5 = false) :
      MapLine ir (.andReg (fieldDR ir) (fieldBase ir) (fieldSR2 ir))
  | andImm (h : op4 ir = 0x5) (hm : ir.getLsbD 5 = true) :
      MapLine ir (.andImm (fieldDR ir) (fieldBase ir) (field ir 0 5))
  | ldr (h : op4 ir = 0x6) : MapLine ir (.ldr (fieldDR ir) (fieldBase ir) (field ir 0 6))
  | str (h : op4 ir = 0x7) : MapLine ir (.str (fieldDR ir) (fieldBase ir) (field ir 0 6))
  | rti (h : op4 ir = 0x8) : MapLine ir (.rti (field ir 0 12))
  | not (h : op4 ir = 0x9) : MapLine ir (.not (fieldDR ir) (fieldBase ir))
  | ldi (h : op4 ir = 0xA) : MapLine ir (.ldi (fieldDR ir) (field ir 0 9))
  | sti (h : op4 ir = 0xB) : MapLine ir (.sti (fieldDR ir) (field ir 0 9))
  | jmp (h : op4 ir = 0xC) : MapLine ir (.jmp (fieldBase ir))
  | res (h : op4 ir = 0xD) : MapLine ir (.res (field ir 0 12))
  | lea (h : op4 ir = 0xE) : MapLine ir (.lea (fieldDR ir) (field ir 0 9))
  | trap (h : op4 ir = 0xF) : MapLine ir (.trap (field ir 0 8))

/-- The map has one line for a word at most: that which the decoder follows. -/
theorem MapLine.decodeFields_eq (hl : MapLine ir i) : decodeFields ir = i := by
  cases hl
  all_goals
    rename op4 ir = _ => h
    obtain ⟨h3, h2, h1, h0⟩ := (op4_eq_iff ir _).mp h
    rw [decodeFields, h3, h2, h1, h0]
  case addReg hm | andReg hm | jsrr hm => exact if_neg (ne_true_of_eq_false hm)
  case addImm hm | andImm hm | jsr hm => exact if_pos hm
  all_goals rfl

/-- The map has a line for every word (rule R81). -/
theorem mapLine_decodeFields (ir : Word) : MapLine ir (decodeFields ir) := by
  unfold decodeFields
  split <;> rename_i h3 h2 h1 h0
  case h_2 =>
    have h : op4 ir = 0x1 := (op4_eq_iff ir _).mpr ⟨h3, h2, h1, h0⟩
    split_ifs with hm
    exacts [.addImm h hm, .addReg h (Bool.eq_false_of_not_eq_true hm)]
  case h_5 =>
    have h : op4 ir = 0x4 := (op4_eq_iff ir _).mpr ⟨h3, h2, h1, h0⟩
    split_ifs with hm
    exacts [.jsr h hm, .jsrr h (Bool.eq_false_of_not_eq_true hm)]
  case h_6 =>
    have h : op4 ir = 0x5 := (op4_eq_iff ir _).mpr ⟨h3, h2, h1, h0⟩
    split_ifs with hm
    exacts [.andImm h hm, .andReg h (Bool.eq_false_of_not_eq_true hm)]
  all_goals
    constructor
    exact (op4_eq_iff ir _).mpr ⟨h3, h2, h1, h0⟩

/-- A service row taken back to the core is `TRAP` of the vector that selects it (rules R98, R99). -/
theorem trapRow_core (v : Byte) : (trapRow v).core = .trap v := by
  unfold trapRow
  split_ifs with h0 h1 h2 h3 h4 h5
  exacts [h0 ▸ rfl, h1 ▸ rfl, h2 ▸ rfl, h3 ▸ rfl, h4 ▸ rfl, h5 ▸ rfl, rfl]

/-- Every service row is well-formed. -/
theorem trapRow_wellFormed (v : Byte) : (trapRow v).wellFormed = true := by
  unfold trapRow
  split_ifs with h0 h1 h2 h3 h4 h5
  case neg =>
    rw [Instr.wellFormed, serviceVector, beq_false_of_ne h0, beq_false_of_ne h1, beq_false_of_ne h2]
    rw [beq_false_of_ne h3, beq_false_of_ne h4, beq_false_of_ne h5]
    rfl
  all_goals rfl

/-- The decoder's rows, a service taken back to `TRAP`, are the lines of the map. -/
theorem decode_core (ir : Word) : (decode ir).core = decodeFields ir := by
  have hl := mapLine_decodeFields ir
  rw [decode]
  generalize decodeFields ir = i at hl
  cases hl
  case trap => exact trapRow_core _
  all_goals rfl

/-- The decoder gives well-formed terms only. -/
theorem decode_wellFormed (ir : Word) : (decode ir).wellFormed = true := by
  have hl := mapLine_decodeFields ir
  rw [decode]
  generalize decodeFields ir = i at hl
  cases hl
  case trap => exact trapRow_wellFormed _
  all_goals rfl

/-- A vector that selects no service has the row of the unrecognised vectors (rules R99, R206). -/
theorem trapRow_of_not_service {v : Byte} (h : serviceVector v = false) : trapRow v = .trapUnknown v := by
  simp only [serviceVector, Bool.or_eq_false_iff, beq_eq_false_iff_ne] at h
  obtain ⟨⟨⟨⟨⟨h0, h1⟩, h2⟩, h3⟩, h4⟩, h5⟩ := h
  rw [trapRow, if_neg h0, if_neg h1, if_neg h2, if_neg h3, if_neg h4, if_neg h5]

/-- A well-formed term is what refines its core: the check leaves one term for each word's meaning (rule R98). -/
theorem refine_core (h : i.wellFormed = true) : refine i.core = i := by
  cases i
  case trapUnknown v =>
    exact trapRow_of_not_service ((Bool.not_eq_true' _).mp h)
  case trap | ret | nop => cases h
  all_goals rfl

/-- The encoder's word of a `TRAP` vector is that vector's (rule R190). -/
theorem mapLine_encodeTrap (v : Byte) : MapLine (encodeTrap v) (.trap v) := by
  have h : field (encodeTrap v) 0 8 = v :=
    (field_append_low _ _ (by omega)).trans BitVec.extractLsb'_append_eq_right
  simpa only [h] using MapLine.trap (ir := encodeTrap v) (top_of_append _ _)

/-- A `BR` word asks for the flags and the offset it was put together from (rules R95, R142). -/
theorem mapLine_encodeBr (n z p : Bool) (off9 : BitVec 9) : MapLine (encodeBr n z p off9) (.br n z p off9) := by
  have hbits : (encodeBr n z p off9).getLsbD 11 = n ∧ (encodeBr n z p off9).getLsbD 10 = z ∧
      (encodeBr n z p off9).getLsbD 9 = p := by
    simp only [encodeBr, BitVec.getLsbD_append]
    simp
  obtain ⟨hn, hz, hp⟩ := hbits
  have h9 : field (encodeBr n z p off9) 0 9 = off9 := by
    rw [encodeBr, field_append_low _ _ (by omega), BitVec.extractLsb'_append_eq_of_add_le (by omega),
      BitVec.extractLsb'_append_eq_of_add_le (by omega)]
    exact BitVec.extractLsb'_append_eq_right
  have h : op4 (encodeBr n z p off9) = 0x0 := top_of_append _ _
  simpa only [hn, hz, hp, h9] using MapLine.br h

/-- A `JSR` word has the mode bit of `JSR` and its own offset (rule R146). -/
theorem mapLine_encode_jsr (off11 : BitVec 11) : MapLine (encode (.jsr off11)) (.jsr off11) := by
  have h : op4 (encode (.jsr off11)) = 0x4 := op4_append _ _
  have hm : (encode (.jsr off11)).getLsbD 11 = true := by
    simp only [encode, BitVec.getLsbD_append]
    simp
  have h11 : field (encode (.jsr off11)) 0 11 = off11 :=
    (field_append_low _ _ (by omega)).trans BitVec.extractLsb'_append_eq_right
  simpa only [h11] using MapLine.jsr h hm

/-- The words of `JMP` and `RET` jump through the register they were put together from (rules R98, R144). -/
theorem mapLine_encodeRegs_jmp (baseR : RegId) : MapLine (encodeRegs 0xC 0 baseR 0) (.jmp baseR) := by
  simpa using MapLine.jmp (op4_encodeRegs 0xC 0 baseR 0)

/-- The word of an instruction is on the map's line for the instruction's core. -/
theorem mapLine_encode (i : Instr) : MapLine (encode i) i.core := by
  cases i with
  | br n z p off9 => exact mapLine_encodeBr n z p off9
  | nop off9 => exact mapLine_encodeBr false false false off9
  | jmp baseR => exact mapLine_encodeRegs_jmp baseR
  | ret => exact mapLine_encodeRegs_jmp 7
  | addReg dr sr1 sr2 =>
    simpa [encode, Instr.core] using MapLine.addReg (op4_encodeRegs 0x1 dr sr1 (0 ++ sr2)) (modeBit_reg ..)
  | andReg dr sr1 sr2 =>
    simpa [encode, Instr.core] using MapLine.andReg (op4_encodeRegs 0x5 dr sr1 (0 ++ sr2)) (modeBit_reg ..)
  | addImm dr sr1 imm5 =>
    simpa [encode, Instr.core] using MapLine.addImm (op4_encodeRegs 0x1 dr sr1 (1 ++ imm5)) (modeBit_imm ..)
  | andImm dr sr1 imm5 =>
    simpa [encode, Instr.core] using MapLine.andImm (op4_encodeRegs 0x5 dr sr1 (1 ++ imm5)) (modeBit_imm ..)
  | jsrr baseR =>
    simpa [encode, Instr.core] using MapLine.jsrr (op4_encodeRegs 0x4 0 baseR 0)
      ((getLsbD_eleven _).trans (congrArg (BitVec.getLsbD · 2) (fieldDR_encodeRegs ..)))
  | jsr off11 => exact mapLine_encode_jsr off11
  | ld dr off9 => simpa [encode, Instr.core] using MapLine.ld (op4_encodePcr 0x2 dr off9)
  | st sr off9 => simpa [encode, Instr.core] using MapLine.st (op4_encodePcr 0x3 sr off9)
  | ldi dr off9 => simpa [encode, Instr.core] using MapLine.ldi (op4_encodePcr 0xA dr off9)
  | sti sr off9 => simpa [encode, Instr.core] using MapLine.sti (op4_encodePcr 0xB sr off9)
  | lea dr off9 => simpa [encode, Instr.core] using MapLine.lea (op4_encodePcr 0xE dr off9)
  | ldr dr baseR off6 => simpa [encode, Instr.core] using MapLine.ldr (op4_encodeRegs 0x6 dr baseR off6)
  | str sr baseR off6 => simpa [encode, Instr.core] using MapLine.str (op4_encodeRegs 0x7 sr baseR off6)
  | not dr sr => simpa [encode, Instr.core] using MapLine.not (op4_encodeRegs 0x9 dr sr 0x3F)
  | rti low12 => simpa [encode, Instr.core] using MapLine.rti (op4_append 0x8 low12)
  | res low12 => simpa [encode, Instr.core] using MapLine.res (op4_append 0xD low12)
  | trap v => exact mapLine_encodeTrap v
  | trapUnknown v => exact mapLine_encodeTrap v
  | _ => exact mapLine_encodeTrap _

/-- Decoding an instruction's word gives its core, a `TRAP` as the service row that refines it. -/
theorem decode_encode (i : Instr) : decode (encode i) = refine i.core := by
  rw [decode, (mapLine_encode i).decodeFields_eq]

/-- Settles O53: an instruction's word is on the map's line for its core, and for a well-formed instruction the
refinement of the core is the instruction. -/
theorem decodeUndoesEncode : Obligations.DecodeUndoesEncode :=
  ⟨fun i h => (decode_encode i).trans (refine_core h), decode_wellFormed⟩

/-- The canonical word of a decoded instruction decodes to that instruction again. -/
theorem decode_encode_decode (ir : Word) : decode (encode (decode ir)) = decode ir :=
  (decode_encode _).trans (refine_core (decode_wellFormed ir))

/-- Settles O52: every line of the map is what the decoder gives, a service taken back to `TRAP`. -/
theorem decodeFollowsTheOpcodeMap : Obligations.DecodeFollowsTheOpcodeMap := by
  intro ir
  have line {i : Instr} (hl : MapLine ir i) : (decode ir).core = i := (decode_core ir).trans hl.decodeFields_eq
  exact ⟨fun h => line (.br h), fun h hm => line (.addReg h hm), fun h hm => line (.addImm h hm),
    fun h => line (.ld h), fun h => line (.st h), fun h hm => line (.jsr h hm), fun h hm => line (.jsrr h hm),
    fun h hm => line (.andReg h hm), fun h hm => line (.andImm h hm), fun h => line (.ldr h),
    fun h => line (.str h), fun h => line (.rti h), fun h => line (.not h), fun h => line (.ldi h),
    fun h => line (.sti h), fun h => line (.jmp h), fun h => line (.res h), fun h => line (.lea h),
    fun h => line (.trap h)⟩

end Sys2Proof

/-! ### What the encoder puts in the ignored bits (rules R93, R97) -/

namespace Sys2Proof

open Sys2Proof.Machine Sys2Proof.Claims

variable {ir : Word} {i : Instr}

/-- An instruction has the word of its core (rule R98). -/
theorem encode_core (i : Instr) : encode i.core = encode i := by
  cases i <;> rfl

/-- What the encoder puts in the ignored bits of an opcode (rule R97): ones for `NOT`, zeros for the rest. -/
def ignoredBits (op : BitVec 4) : Word := if op = 0x9 then 0x003F else 0

/-- Outside `NOT` the encoder leaves the ignored bits 0. -/
theorem or_ignoredBits {op : BitVec 4} (h : op ≠ 0x9) (x : Word) : x ||| ignoredBits op = x := by
  rw [ignoredBits, if_neg h]
  exact BitVec.or_zero

/-- Format OPR: the encoder clears the two ignored bits between the mode bit and `SR2`. -/
theorem encodeRegs_fields_reg (h : op4 ir = 0x1 ∨ op4 ir = 0x5) (hm : ir.getLsbD 5 = false) :
    encodeRegs (op4 ir) (fieldDR ir) (fieldBase ir) ((0 : BitVec 3) ++ fieldSR2 ir) = ir &&& readMask ir := by
  have hmask : readMask ir = encodeRegs (.allOnes 4) (.allOnes 3) (.allOnes 3) 0x27 := by
    rw [readMask, if_pos h, hm]; rfl
  have hlow : ∀ x : BitVec 6, x.getLsbD 5 = false → x &&& 0x27 = (0 : BitVec 3) ++ x.extractLsb' 0 3 := by decide
  have hsr2 : (field ir 0 6).extractLsb' 0 3 = fieldSR2 ir := BitVec.extractLsb'_extractLsb'_of_le (by omega)
  rw [hmask, and_encodeRegs, BitVec.and_allOnes, BitVec.and_allOnes, BitVec.and_allOnes,
    hlow _ (getLsbD_five ir ▸ hm), hsr2]

/-- Format OPI: the encoder sets the mode bit, and no bit is ignored. -/
theorem encodeRegs_fields_imm (hm : ir.getLsbD 5 = true) :
    encodeRegs (op4 ir) (fieldDR ir) (fieldBase ir) ((1 : BitVec 1) ++ field ir 0 5) = ir := by
  have h1 : field ir 5 1 = 1 := by rw [← ofBool_getLsbD, hm]; rfl
  rw [← h1, field_append_field ir (rfl : 0 + 5 = 5)]
  exact encodeRegs_fields ir

/-- Format JSR: the encoder sets the mode bit, and no bit is ignored. -/
theorem encode_jsr_fields (h : op4 ir = 0x4) (hm : ir.getLsbD 11 = true) :
    encode (.jsr (field ir 0 11)) = ir := by
  have h1 : field ir 11 1 = 1 := by rw [← ofBool_getLsbD, hm]; rfl
  rw [encode, ← h, ← h1, field_append_field ir (rfl : 0 + 11 = 11)]
  exact op4_append_field ir

/-- Format JSRR: the encoder clears all bits but the opcode and the base; the mode bit is clear already. -/
theorem encode_jsrr_fields (h : op4 ir = 0x4) (hm : ir.getLsbD 11 = false) :
    encode (.jsrr (fieldBase ir)) = ir &&& readMask ir := by
  have hmask : readMask ir = encodeRegs (.allOnes 4) 0b100 (.allOnes 3) 0#6 := by
    simp only [readMask, h, hm]; rfl
  have hdr : ∀ x : BitVec 3, x.getLsbD 2 = false → x &&& 0b100 = 0 := by decide
  rw [hmask, and_encodeRegs, BitVec.and_allOnes, hdr _ (getLsbD_eleven ir ▸ hm), BitVec.and_allOnes,
    BitVec.and_zero, h]
  rfl

/-- Format JMP: the encoder clears all bits but the opcode and the base. -/
theorem encode_jmp_fields (h : op4 ir = 0xC) : encode (.jmp (fieldBase ir)) = ir &&& readMask ir := by
  have hmask : readMask ir = encodeRegs (.allOnes 4) 0#3 (.allOnes 3) 0#6 := by
    simp only [readMask, h]; rfl
  rw [hmask, and_encodeRegs, BitVec.and_allOnes, BitVec.and_zero, BitVec.and_allOnes, BitVec.and_zero, h]
  rfl

/-- The read bits of a `NOT` word (rules R83, R93). -/
theorem readMask_not (h : op4 ir = 0x9) :
    readMask ir = encodeRegs (.allOnes 4) (.allOnes 3) (.allOnes 3) 0#6 := by
  simp only [readMask, h]; rfl

/-- Format NOT: the encoder sets the six low bits. -/
theorem encode_not_fields (h : op4 ir = 0x9) :
    encode (.not (fieldDR ir) (fieldBase ir)) = ir &&& readMask ir ||| ignoredBits (op4 ir) := by
  have hones : ignoredBits (op4 ir) = encodeRegs 0#4 0#3 0#3 0x3F := by
    rw [h]; rfl
  rw [readMask_not h, and_encodeRegs, hones, encodeRegs_or, BitVec.and_allOnes, BitVec.and_allOnes,
    BitVec.and_allOnes, BitVec.and_zero, BitVec.or_zero, BitVec.or_zero, BitVec.or_zero, BitVec.zero_or, h, encode]

/-- Format TRAP: the encoder clears the four bits between the opcode and the vector. -/
theorem encode_trap_fields (h : op4 ir = 0xF) : encode (.trap (field ir 0 8)) = ir &&& readMask ir := by
  have hmask : readMask ir = (.allOnes 4 : BitVec 4) ++ (0#4 ++ BitVec.allOnes 8) := by
    simp only [readMask, h]; rfl
  have hir : op4 ir ++ (field ir 8 4 ++ field ir 0 8) = ir := by
    rw [field_append_field ir (rfl : 0 + 8 = 8)]
    exact op4_append_field ir
  have hand : (op4 ir ++ (field ir 8 4 ++ field ir 0 8)) &&& (BitVec.allOnes 4 ++ (0#4 ++ BitVec.allOnes 8)) =
      op4 ir ++ (0#4 ++ field ir 0 8) := by
    rw [BitVec.and_append, BitVec.and_append, BitVec.and_allOnes, BitVec.and_zero, BitVec.and_allOnes]
  rw [hmask]
  conv_rhs => rw [← hir]
  refine Eq.trans ?_ hand.symm
  rw [h]
  rfl

/-- Where the encoder fills no ignored bit with 1, the word of a line of the map is the read bits alone. -/
theorem MapLine.encode_eq (hl : MapLine ir i) (h8 : op4 ir ≠ 0x8) (h9 : op4 ir ≠ 0x9) (hD : op4 ir ≠ 0xD) :
    encode i = ir &&& readMask ir := by
  have full (hmask : readMask ir = .allOnes 16) : ir &&& readMask ir = ir := by
    rw [hmask, BitVec.and_allOnes]
  cases hl with
  | br h => rw [full (by simp [readMask, h]), encode, encodeBr_fields ir h]
  | addReg h hm => rw [← encodeRegs_fields_reg (.inl h) hm, h, encode]
  | andReg h hm => rw [← encodeRegs_fields_reg (.inr h) hm, h, encode]
  | addImm h hm | andImm h hm =>
    rw [full (by simp [readMask, h, hm]), encode, ← h, encodeRegs_fields_imm hm]
  | ld h | st h | ldi h | sti h | lea h => rw [full (by simp [readMask, h]), encode, ← h, encodePcr_fields]
  | ldr h | str h => rw [full (by simp [readMask, h]), encode, ← h, encodeRegs_fields]
  | jsr h hm => rw [full (by simp [readMask, h, hm]), encode_jsr_fields h hm]
  | jsrr h hm => exact encode_jsrr_fields h hm
  | jmp h => exact encode_jmp_fields h
  | trap h => exact encode_trap_fields h
  | not h => exact absurd h h9
  | rti h => exact absurd h h8
  | res h => exact absurd h hD

/-- Encoding a decoded word, outside `RTI` and `RES`: the read bits, and the fixed filling of the ignored ones. -/
theorem encode_decode (h8 : op4 ir ≠ 0x8) (hD : op4 ir ≠ 0xD) :
    encode (decode ir) = ir &&& readMask ir ||| ignoredBits (op4 ir) := by
  have hl := mapLine_decodeFields ir
  rw [← encode_core, decode_core]
  by_cases h9 : op4 ir = 0x9
  · rw [(MapLine.not h9).decodeFields_eq, encode_not_fields h9]
  · rw [hl.encode_eq h8 h9 hD, or_ignoredBits h9]

/-- `RTI` and `RES` words are encoded whole (rules R220, R222, R231). -/
theorem encode_decode_reserved (h : op4 ir = 0x8 ∨ op4 ir = 0xD) : encode (decode ir) = ir := by
  have hir := op4_append_field ir
  rcases h with h | h
  · rw [decode_of_op4_rti h, encode, ← h, hir]
  · rw [decode_of_op4_res h, encode, ← h, hir]

/-- The bits that the encoder fills are ignored ones. -/
theorem ignoredBits_and_readMask (ir : Word) : ignoredBits (op4 ir) &&& readMask ir = 0 := by
  by_cases h : op4 ir = 0x9
  · rw [readMask_not h, h]; rfl
  · rw [ignoredBits, if_neg h]
    exact BitVec.zero_and

/-- Settles O54: the filling of the ignored bits is outside the mask. -/
theorem encodeKeepsTheReadBits : Obligations.EncodeKeepsTheReadBits := by
  intro ir
  by_cases h : op4 ir = 0x8 ∨ op4 ir = 0xD
  · rw [encode_decode_reserved h]
  · obtain ⟨h8, hD⟩ := not_or.mp h
    rw [encode_decode h8 hD, BitVec.and_or_distrib_right, BitVec.and_assoc, BitVec.and_self,
      ignoredBits_and_readMask]
    exact BitVec.or_zero

/-! ### Words that agree in the read bits (rule R93) -/

/-- The decoder always reads the opcode. -/
theorem op4_readMask (ir : Word) : op4 (readMask ir) = .allOnes 4 := by
  unfold readMask
  split_ifs <;> rfl

section
variable {v w : Word} (h : v &&& readMask w = w &&& readMask w)
include h

/-- Words that agree in the read bits have one opcode. -/
theorem op4_eq_of_agree : op4 v = op4 w := by
  have ho : op4 (v &&& readMask w) = op4 (w &&& readMask w) := congrArg op4 h
  simp only [op4, BitVec.extractLsb'_and] at ho
  rw [← op4, ← op4, ← op4, op4_readMask, BitVec.and_allOnes, BitVec.and_allOnes] at ho
  exact ho

/-- Words that agree in the read bits have the same bit wherever the mask has 1. -/
theorem getLsbD_eq_of_agree {i : Nat} (hi : (readMask w).getLsbD i = true) : v.getLsbD i = w.getLsbD i := by
  have hb := congrArg (BitVec.getLsbD · i) h
  simpa only [BitVec.getLsbD_and, hi, Bool.and_true] using hb

/-- Which bits are read depends on read bits only: on the opcode and on the mode bit. -/
theorem readMask_eq_of_agree : readMask v = readMask w := by
  have hop := op4_eq_of_agree h
  by_cases h5 : op4 w = 0x1 ∨ op4 w = 0x5
  · have hm : (readMask w).getLsbD 5 = true := by
      rw [readMask, if_pos h5]; split_ifs <;> rfl
    rw [readMask, readMask, hop, if_pos h5, if_pos h5, getLsbD_eq_of_agree h hm]
  by_cases h11 : op4 w = 0x4
  · have hm : (readMask w).getLsbD 11 = true := by
      rw [readMask, if_neg h5, if_pos h11]; split_ifs <;> rfl
    rw [readMask, readMask, hop, if_neg h5, if_neg h5, if_pos h11, if_pos h11, getLsbD_eq_of_agree h hm]
  · simp only [readMask, hop, h5, h11, if_false]

end

/-- Settles O55: the canonical word of a decoded word is made of its read bits, and decodes to the same instruction;
a reserved word has its whole self in the fault record. -/
theorem ignoredBitsDoNotMatter : Obligations.IgnoredBitsDoNotMatter := by
  intro v w h
  have hop := op4_eq_of_agree h
  refine ⟨fun h8 hD => ?_, fun hr s => ⟨_, exec_decode_reserved hr rfl, exec_decode_reserved hr hop⟩⟩
  have hword : encode (decode v) = encode (decode w) := by
    rw [encode_decode (hop ▸ h8) (hop ▸ hD), encode_decode h8 hD, readMask_eq_of_agree h, hop, h]
  calc decode v = decode (encode (decode v)) := (decode_encode_decode v).symm
    _ = decode (encode (decode w)) := congrArg decode hword
    _ = decode w := decode_encode_decode w

/-! ### Sign extension, the terms for one word, and the words of the encoding table (rules R83, R84, R98) -/

/-- Settles O3: at each of the four widths, which are below 16, sign extension keeps the signed value and puts
copies of the top bit above. -/
theorem signExtensionKeepsTheValue : Obligations.SignExtensionKeepsTheValue := by
  refine ⟨?_, ?_, ?_, ?_⟩
  all_goals exact fun _ =>
    ⟨BitVec.toInt_signExtend_of_le (by omega), BitVec.signExtend_eq_append_of_le (by omega)⟩

/-- Settles O56: the two sides have one meaning, and the words of `RET`, `NOP` and `TRAP` decode to the refined core. -/
theorem aliasesAddNothing : Obligations.AliasesAddNothing := fun s _ v =>
  ⟨rfl, decode_encode _, rfl, decode_encode _, exec_refine (.trap v) s, decode_encode _, trapRow_core v⟩

/-- Settles O57, by running the decoder on each word. -/
theorem specWordsDecode : Obligations.SpecWordsDecode := by
  unfold Obligations.SpecWordsDecode
  decide

end Sys2Proof

/-!
PROOFS. The operate family: the decoder on a line of the opcode map, what a flag-setting write leaves of the state,
and the statements about `ADD`, `AND` and `NOT`.
-/

/-! ### The decoder on a line of the opcode map (rule R91) -/

namespace Sys2Proof

/-- The decoder gives a word the refinement of its line of the map. -/
theorem MapLine.decode_eq {ir : Word} {i : Instr} (hl : MapLine ir i) : decode ir = refine i :=
  congrArg refine hl.decodeFields_eq

end Sys2Proof

/-! ### `ADD`, `AND` and `NOT` (rules R122 to R128) -/

namespace Sys2Proof.Machine

open Sys2Proof.Claims

/-- The write of a flag-setting instruction does what rule R30 says, and nothing else. -/
theorem State.writeResult_onlyResult (s : State) (dr : RegId) (v : Word) : OnlyResult s (s.writeResult dr v) dr v :=
  ⟨State.reg_setReg_self s dr v, fun _ hr => State.reg_setReg_ne s v hr, flagFor_flagOf v, rfl, rfl, fun _ => rfl,
    ⟨rfl, rfl, rfl⟩, ⟨rfl, rfl, rfl⟩⟩

/-- `NOT` writes the difference from the word of 16 ones (rule R128). -/
theorem exec_not (dr sr : RegId) (s : State) :
    exec (.not dr sr) s = .next (s.writeResult dr (0xFFFF - s.reg sr)) := by
  have h : 0xFFFF - s.reg sr = ~~~(s.reg sr) := BitVec.allOnes_sub_eq_not _
  rw [h]
  rfl

/-- Settles O10: the line of the map, and the flag-setting write of the sum of the two registers. -/
theorem addRegister : Obligations.AddRegister :=
  ⟨fun _ hop hm => (MapLine.addReg hop hm).decode_eq,
    fun _ _ _ s => ⟨_, rfl, s.writeResult_onlyResult _ _⟩⟩

/-- Settles O11: the line of the map, and the flag-setting write of the sum with the extended immediate. -/
theorem addImmediate : Obligations.AddImmediate :=
  ⟨fun _ hop hm => (MapLine.addImm hop hm).decode_eq,
    fun _ _ _ s => ⟨_, rfl, s.writeResult_onlyResult _ _⟩⟩

/-- Settles O12: the line of the map, and the flag-setting write of the two registers' common bits. -/
theorem andRegister : Obligations.AndRegister :=
  ⟨fun _ hop hm => (MapLine.andReg hop hm).decode_eq,
    fun _ _ _ s => ⟨_, rfl, s.writeResult_onlyResult _ _⟩⟩

/-- Settles O13: the line of the map, and the flag-setting write of the bits shared with the extended immediate. -/
theorem andImmediate : Obligations.AndImmediate :=
  ⟨fun _ hop hm => (MapLine.andImm hop hm).decode_eq,
    fun _ _ _ s => ⟨_, rfl, s.writeResult_onlyResult _ _⟩⟩

/-- Settles O14: the line of the map, and the flag-setting write of the complement as a difference. -/
theorem notComplements : Obligations.NotComplements :=
  ⟨fun _ hop => (MapLine.not hop).decode_eq,
    fun dr sr s => ⟨_, exec_not dr sr s, s.writeResult_onlyResult _ _⟩⟩

end Sys2Proof.Machine

/-!
PROOFS. The control family: what a write of `pc`, with and without the link, leaves of the state; where a branch and
a call through a register go; and the statements about `BR`, `NOP`, `JMP`, `RET`, `JSR` and `JSRR`.
-/

namespace Sys2Proof.Machine

open Sys2Proof.Claims

/-! ### The writes of a transfer of control (rules R142 to R148) -/

/-- A write of `pc` changes nothing else. -/
theorem State.setPc_onlyPc (s : State) (v : Word) : OnlyPc s (s.setPc v) v :=
  ⟨rfl, fun _ => rfl, rfl, rfl, fun _ => rfl, ⟨rfl, rfl, rfl⟩, ⟨rfl, rfl, rfl⟩⟩

/-- A linking write of `pc` puts the advanced counter into `R[7]`, and changes nothing else. -/
theorem State.link_setPc_onlyLinkAndPc (s : State) (v : Word) : OnlyLinkAndPc s (s.link.setPc v) s.pc v :=
  ⟨State.reg_setReg_self s 7 s.pc, fun _ hr => State.reg_setReg_ne s s.pc hr, rfl, rfl, rfl, fun _ => rfl,
    ⟨rfl, rfl, rfl⟩, ⟨rfl, rfl, rfl⟩⟩

/-- A register read after the link (rule R148). -/
theorem State.reg_link (s : State) (r : RegId) : s.link.reg r = if r = 7 then s.pc else s.reg r :=
  State.reg_setReg s 7 s.pc r

/-! ### Where control goes -/

/-- A branch is taken where the current flag is a requested one (rule R142). -/
theorem branchTaken_iff (n z p : Bool) (c : CC) : branchTaken n z p c = true ↔
    (n = true ∧ c = .neg) ∨ (z = true ∧ c = .zro) ∨ (p = true ∧ c = .pos) := by
  cases c <;> simp [branchTaken]

/-- `BR` writes `pc`, with the target where the branch is taken and with what it holds where it is not. -/
theorem exec_br (n z p : Bool) (off9 : BitVec 9) (s : State) : exec (.br n z p off9) s =
    .next (s.setPc (if branchTaken n z p s.cc then s.pc + sext off9 else s.pc)) :=
  congrArg Host.Outcome.next (s.branchIf_eq _ off9)

/-- `JSRR` jumps to the register as it stands after the link: `JSRR R7` falls through (rule R148). -/
theorem exec_jsrr (baseR : RegId) (s : State) : exec (.jsrr baseR) s =
    .next (s.link.setPc (if baseR = 7 then s.pc else s.reg baseR)) := by
  rw [← s.reg_link baseR]
  rfl

/-! ### `BR`, `NOP`, `JMP`, `RET`, `JSR` and `JSRR` -/

/-- Settles O15: the line of the map, the write of `pc` under the condition of `BR`, and `NOP`, which leaves the
state it finds. -/
theorem branchOnRequestedFlag : Obligations.BranchOnRequestedFlag := by
  refine ⟨fun _ hop => (MapLine.br hop).decode_eq, fun n z p off9 s => ⟨_, exec_br n z p off9 s, ?_⟩,
    fun off9 s => ⟨s, exec_nop off9 s, s.setPc_onlyPc s.pc⟩⟩
  simp only [branchTaken_iff]
  exact s.setPc_onlyPc _

/-- Settles O16: the line of the map, and the write of `pc` with the register. -/
theorem jumpThroughRegister : Obligations.JumpThroughRegister :=
  ⟨fun _ hop => (MapLine.jmp hop).decode_eq, fun baseR s => ⟨_, rfl, s.setPc_onlyPc (s.reg baseR)⟩,
    fun s => ⟨_, rfl, s.setPc_onlyPc (s.reg 7)⟩⟩

/-- Settles O17: the line of the map, and the linking write of `pc` with the sum. -/
theorem callRelative : Obligations.CallRelative :=
  ⟨fun _ hop hm => (MapLine.jsr hop hm).decode_eq,
    fun off11 s => ⟨_, rfl, s.link_setPc_onlyLinkAndPc (s.pc + sext off11)⟩⟩

/-- Settles O18: the line of the map, and the linking write of `pc` with the register read after the link. -/
theorem callThroughRegister : Obligations.CallThroughRegister :=
  ⟨fun _ hop hm => (MapLine.jsrr hop hm).decode_eq,
    fun baseR s => ⟨_, exec_jsrr baseR s, s.link_setPc_onlyLinkAndPc _⟩⟩

end Sys2Proof.Machine

/-!
PROOFS. The load and store family: what a load, a plain store and the two indirect accesses leave of the state, and
the statements about `LD`, `LDI`, `LDR`, `LEA`, `ST`, `STI` and `STR`.
-/

namespace Sys2Proof.Machine

open Sys2Proof.Claims

/-! ### The shared accesses (rules R160, R161) -/

/-- A load is the flag-setting write of the word read, in the state that read leaves; away from the keyboard status
cell that state is the state before (rule R54). -/
theorem State.loadFrom_loaded (s : State) (dr : RegId) (ea : Word) : Loaded s (s.loadFrom dr ea) dr ea := by
  refine ⟨State.writeResult_onlyResult _ dr _, fun hea => ?_⟩
  rw [State.loadFrom, State.memRead_of_ne hea]
  exact s.writeResult_onlyResult dr _

/-- In a canonical memory a store changes its cell and nothing else (rule R55). -/
theorem State.storeTo_onlyStored {s : State} (hm : Memory.wf s.mem) (sr : RegId) (ea : Word) :
    OnlyStored s (s.storeTo sr ea) ea (s.reg sr) :=
  writeIsADirectStore s ea (s.reg sr) hm

/-- `LDI` is a load at the pointer, in the state the pointer read leaves (rule R164). -/
theorem exec_ldi {s u : State} {off9 : BitVec 9} {p : Word} (h : s.memRead (s.pc + sext off9) = (p, u))
    (dr : RegId) : exec (.ldi dr off9) s = .next (u.loadFrom dr p) :=
  congrArg (fun r : Word × State => Host.Outcome.next (r.2.loadFrom dr r.1)) h

/-- `STI` is a store at the pointer, in the state the pointer read leaves (rule R172). -/
theorem exec_sti {s u : State} {off9 : BitVec 9} {p : Word} (h : s.memRead (s.pc + sext off9) = (p, u))
    (sr : RegId) : exec (.sti sr off9) s = .next (u.storeTo sr p) :=
  congrArg (fun r : Word × State => Host.Outcome.next (r.2.storeTo sr r.1)) h

/-! ### `LD`, `LDI`, `LDR` and `LEA` (rules R162 to R168) -/

/-- Settles O19: the line of the map, and the load at the PC-relative address. -/
theorem loadRelative : Obligations.LoadRelative :=
  ⟨fun _ hop => (MapLine.ld hop).decode_eq, fun dr off9 s => ⟨_, rfl, s.loadFrom_loaded dr (s.pc + sext off9)⟩⟩

/-- Settles O20: the line of the map, and the load at the pointer in the state the pointer read leaves. -/
theorem loadIndirect : Obligations.LoadIndirect :=
  ⟨fun _ hop => (MapLine.ldi hop).decode_eq,
    fun dr _ _ p u h => ⟨_, exec_ldi h dr, u.loadFrom_loaded dr p⟩⟩

/-- Settles O21: the line of the map, and the load at the base + offset address. -/
theorem loadBaseOffset : Obligations.LoadBaseOffset :=
  ⟨fun _ hop => (MapLine.ldr hop).decode_eq,
    fun dr baseR off6 s => ⟨_, rfl, s.loadFrom_loaded dr (s.reg baseR + sext off6)⟩⟩

/-- Settles O22: the line of the map, and the flag-setting write of the PC-relative address itself. -/
theorem loadEffectiveAddress : Obligations.LoadEffectiveAddress :=
  ⟨fun _ hop => (MapLine.lea hop).decode_eq,
    fun dr off9 s => ⟨_, rfl, s.writeResult_onlyResult dr (s.pc + sext off9)⟩⟩

/-! ### `ST`, `STI` and `STR` (rules R170 to R174) -/

/-- Settles O23: the line of the map, and the store at the PC-relative address. -/
theorem storeRelative : Obligations.StoreRelative :=
  ⟨fun _ hop => (MapLine.st hop).decode_eq,
    fun sr off9 s hm => ⟨_, rfl, State.storeTo_onlyStored hm sr (s.pcRelative off9)⟩⟩

/-- Settles O24: the line of the map, and the store at the pointer; the pointer read keeps the memory canonical and
the register to be stored. -/
theorem storeIndirect : Obligations.StoreIndirect := by
  refine ⟨fun _ hop => (MapLine.sti hop).decode_eq, fun sr off9 s p u hm h => ⟨_, exec_sti h sr, ?_⟩⟩
  have hu : u = (s.memRead (s.pc + sext off9)).2 := congrArg Prod.snd h.symm
  have hmu : Memory.wf u.mem := hu ▸ State.memRead_wf hm _
  have hreg : u.reg sr = s.reg sr := hu ▸ s.reg_memRead _ sr
  exact hreg ▸ State.storeTo_onlyStored hmu sr p

/-- Settles O25: the line of the map, and the store at the base + offset address. -/
theorem storeBaseOffset : Obligations.StoreBaseOffset :=
  ⟨fun _ hop => (MapLine.str hop).decode_eq,
    fun sr baseR off6 s hm => ⟨_, rfl, State.storeTo_onlyStored hm sr (s.baseOffset baseR off6)⟩⟩

end Sys2Proof.Machine

/-!
PROOFS. The trap family: the row of a `TRAP` word and the meaning its vector selects; the services that do not walk a
string; the hold of `GETC` and `IN` and the key that lifts it; `PUTS` and `PUTSP` as their loops; and the `PUTS` that
never ends.
-/

/-! ### The row of a `TRAP` word (rules R99, R190) -/

namespace Sys2Proof

open Sys2Proof.Machine Sys2Proof.Claims

variable {ir : Word} {v : Byte}

/-- A `TRAP` word decodes to the row of its vector. -/
theorem decode_trapWord (hop : op4 ir = 0xF) (hv : ir.extractLsb' 0 8 = v) : decode ir = trapRow v :=
  hv ▸ decode_of_op4_trap hop

/-- The row of a vector has the meaning that the dispatch gives the vector. -/
theorem exec_trapRow (v : Byte) (s : State) : exec (trapRow v) s = exec (.trap v) s := exec_refine (.trap v) s

/-- The vectors outside `0x20` to `0x25` select no service (rule R206). -/
theorem serviceVector_of_outside (h : v.toNat < 0x20 ∨ 0x25 < v.toNat) : serviceVector v = false := by
  have hne : ∀ w : Byte, 0x20 ≤ w.toNat → w.toNat ≤ 0x25 → (v == w) = false := by
    intro w hlo hhi
    refine beq_false_of_ne ?_
    rintro rfl
    omega
  rw [serviceVector, hne 0x20, hne 0x21, hne 0x22, hne 0x23, hne 0x24, hne 0x25] <;> decide

/-- Such a vector has the row of the unrecognised vectors. -/
theorem trapRow_of_outside (h : v.toNat < 0x20 ∨ 0x25 < v.toNat) : trapRow v = .trapUnknown v :=
  trapRow_of_not_service (serviceVector_of_outside h)

end Sys2Proof

/-! ### The dispatch, and the services that walk no string (rules R190 to R206) -/

namespace Sys2Proof.Machine

open Sys2Proof.Claims

variable {s t : State} {k : Byte}

/-- `TRAP` answers a next state for every vector. -/
theorem exec_trap_next (v : Byte) (s : State) : ∃ t, exec (.trap v) s = .next t := by
  show ∃ t, execTrap v s = .next t
  unfold execTrap
  split_ifs <;> exact ⟨_, rfl⟩

/-- `TRAP` does not write `R[7]` (rule R190). -/
theorem writesReg_trap_ne_seven (v : Byte) : writesReg (.trap v) ≠ some 7 := by
  rw [writesReg]
  split_ifs <;> decide

/-- Settles O37: the dispatch answers a next state for every vector and writes neither `R[7]` nor `CC`, and the row
of a vector has the meaning of `TRAP` with that vector. -/
theorem trapDispatchesOnTheVector : Obligations.TrapDispatchesOnTheVector := by
  intro s v
  refine ⟨?_, fun ir hop hv => decode_trapWord hop hv ▸ exec_trapRow v s, fun h => h ▸ rfl, fun h => h ▸ rfl,
    fun h => h ▸ rfl, fun h => h ▸ rfl, fun h => h ▸ rfl, fun h => h ▸ rfl, fun h => ?_⟩
  · obtain ⟨t, ht⟩ := exec_trap_next v s
    exact ⟨t, ht, registerWriters _ s t ht 7 (writesReg_trap_ne_seven v), (flagWriters _ s t ht).1 rfl⟩
  · rw [← exec_trapRow, trapRow_of_outside h]

/-- `GETC` and `IN` take the key into `R[0]`, zero-extended, and write no other register. -/
theorem State.reg_takeKey (s : State) (k : Byte) : (((s.setSlot none).setReg 0 (zext8 k)).reg 0).toNat = k.toNat ∧
    ∀ r, r ≠ 0 → ((s.setSlot none).setReg 0 (zext8 k)).reg r = s.reg r :=
  ⟨(congrArg BitVec.toNat (State.reg_setReg_self _ 0 _)).trans (toNat_zext8 k),
    fun _ hr => State.reg_setReg_ne (s.setSlot none) _ hr⟩

/-- `GETC` with a key in the mailbox. -/
theorem exec_getc_key (hk : s.kbdSlot = some k) :
    exec .trapGetc s = .next ((s.setSlot none).setReg 0 (zext8 k)) :=
  congrArg Host.Outcome.next (State.serviceGetc_some hk)

/-- `IN` with a key in the mailbox. -/
theorem exec_in_key (hk : s.kbdSlot = some k) :
    exec .trapIn s = .next (((s.setSlot none).setReg 0 (zext8 k)).outChar k) :=
  congrArg Host.Outcome.next (State.serviceIn_some hk)

/-- `GETC` with an empty mailbox waits. -/
theorem exec_getc_wait (hk : s.kbdSlot = none) : exec .trapGetc s = .next (s.setPc (s.pc - 1)) :=
  congrArg Host.Outcome.next (State.serviceGetc_none hk)

/-- `IN` with an empty mailbox waits. -/
theorem exec_in_wait (hk : s.kbdSlot = none) : exec .trapIn s = .next (s.setPc (s.pc - 1)) :=
  congrArg Host.Outcome.next (State.serviceIn_none hk)

/-- Settles O26: the row of the vector, the write of `R[0]` with the key, and the write of `pc` of the wait. -/
theorem getcTakesTheKey : Obligations.GetcTakesTheKey := by
  refine ⟨fun _ hop hv => decode_trapWord hop hv, fun s k hk => ?_,
    fun s hk => ⟨_, exec_getc_wait hk, s.setPc_onlyPc _⟩⟩
  obtain ⟨hkey, hothers⟩ := s.reg_takeKey k
  exact ⟨_, exec_getc_key hk, hkey, hothers, rfl, ⟨rfl, rfl, rfl⟩, fun _ => rfl, rfl, rfl, ⟨rfl, rfl, rfl⟩⟩

/-- Settles O27: as `GETC`, and the key sent to the output. -/
theorem inEchoesTheKey : Obligations.InEchoesTheKey := by
  refine ⟨fun _ hop hv => decode_trapWord hop hv, fun s k hk => ?_,
    fun s hk => ⟨_, exec_in_wait hk, s.setPc_onlyPc _⟩⟩
  obtain ⟨hkey, hothers⟩ := s.reg_takeKey k
  exact ⟨_, exec_in_key hk, hkey, hothers, rfl, ⟨rfl, rfl, rfl⟩, fun _ => rfl, rfl, rfl, ⟨rfl, rfl, rfl⟩⟩

/-- The low byte of a word is its value modulo 256 (rule R60). -/
theorem toNat_lowByte (w : Word) : (lowByte w).toNat = w.toNat % 256 := by
  rw [lowByte, BitVec.extractLsb'_toNat, Nat.shiftRight_zero]

/-- Settles O28: the row of the vector, and the low byte of `R[0]` sent to the output. -/
theorem outSendsTheLowByte : Obligations.OutSendsTheLowByte :=
  ⟨fun _ hop hv => decode_trapWord hop hv, fun s => ⟨s.serviceOut, lowByte (s.reg 0), rfl, rfl, toNat_lowByte _,
    fun _ => rfl, ⟨rfl, rfl, rfl⟩, fun _ => rfl, rfl, rfl, ⟨rfl, rfl, rfl⟩⟩⟩

/-- Settles O35: the row of the vector, and the write of `STATE`. -/
theorem haltStops : Obligations.HaltStops :=
  ⟨fun _ hop hv => decode_trapWord hop hv, fun s => ⟨s.serviceHalt, rfl, rfl, fun _ => rfl, rfl, rfl, fun _ => rfl,
    ⟨rfl, rfl, rfl⟩, ⟨rfl, rfl, rfl⟩⟩⟩

/-- Settles O36: the vectors that select no service have the row whose meaning is the report. -/
theorem unknownVectorIsReported : Obligations.UnknownVectorIsReported := by
  intro s v h
  have hrow : trapRow v = .trapUnknown v := trapRow_of_outside h
  refine ⟨fun ir hop hv => (decode_trapWord hop hv).trans hrow, fun i hi => ⟨s.serviceUnknown v, ?_, rfl,
    fun _ => rfl, ⟨rfl, rfl, rfl⟩, fun _ => rfl, rfl, rfl, ⟨rfl, rfl, rfl⟩⟩⟩
  rcases hi with rfl | rfl
  · rfl
  · rw [← exec_trapRow, hrow]
    rfl

end Sys2Proof.Machine

/-! ### The hold of `GETC` and `IN`, and the key that lifts it (rules R194, R200, R208) -/

namespace Sys2Proof.Machine

open Sys2Proof.Claims

variable {s t : State} {k : Byte}

/-- The step of a running core at a `TRAP` word: the meaning that the dispatch gives the vector, with the counter
advanced, and then the producer's move. -/
theorem step_trapWord (hr : s.status = .running) (hw : s.walk = none) (hp : s.pc ≠ Config.kbsr)
    (hop : op4 (s.cell s.pc) = 0xF)
    (hx : exec (.trap (lowByte (s.cell s.pc))) (s.setPc (s.pc + 1)) = .next t) : step s = .next t.keyboardMove := by
  refine step_of_exec hr hw ?_
  rw [State.fetch_eq, State.memRead_of_ne hp]
  show exec (decode (s.cell s.pc)) (s.setPc (s.pc + 1)) = .next t
  rw [decode_of_op4_trap hop, exec_trapRow, hx]

/-- The producer's move writes no register. -/
@[simp] theorem State.reg_keyboardMove (s : State) (q : RegId) : s.keyboardMove.reg q = s.reg q :=
  congrArg (·[q.toNat]'q.isLt) State.keyboardMove_regs

/-- The wait takes back the advance of the counter: the state is as it was before the fetch. -/
theorem State.setPc_advance_back (s : State) :
    (s.setPc (s.pc + 1)).setPc ((s.setPc (s.pc + 1)).pc - 1) = s := by
  rw [State.setPc_pc, BitVec.add_sub_cancel]
  rfl

/-- `GETC` and `IN` with an empty mailbox wait alike. -/
theorem exec_trap_of_wait {v : Byte} (hv : v = 0x20 ∨ v = 0x23) (hk : s.kbdSlot = none) :
    exec (.trap v) s = .next (s.setPc (s.pc - 1)) := by
  rcases hv with rfl | rfl
  · exact exec_getc_wait hk
  · exact exec_in_wait hk

/-- Settles O38: the wait leaves the state before the fetch, and only the producer's move follows. -/
theorem holdChangesNothing : Obligations.HoldChangesNothing := by
  rintro s ⟨hr, hw, hp, hop, hv, hk⟩
  have hx := exec_trap_of_wait (s := s.setPc (s.pc + 1)) hv hk
  rw [State.setPc_advance_back] at hx
  rw [step_trapWord hr hw hp hop hx, State.keyboardMove_of_none hw]

/-- What `GETC` and `IN` with a key in the mailbox have in common, and the echo that only `IN` makes. -/
theorem exec_trap_of_key {v : Byte} (hv : v = 0x20 ∨ v = 0x23) (hk : s.kbdSlot = some k) :
    ∃ t, exec (.trap v) s = .next t ∧ (t.reg 0).toNat = k.toNat ∧
      t.out = (if v = 0x23 then s.out ++ [k] else s.out) ∧ SameControl s t := by
  rcases hv with rfl | rfl
  · obtain ⟨t, hx, hreg, -, -, hcontrol, -, hout, -⟩ := getcTakesTheKey.2.1 s k hk
    exact ⟨t, hx, hreg, hout, hcontrol⟩
  · obtain ⟨t, hx, hreg, -, -, hcontrol, -, hout, -⟩ := inEchoesTheKey.2.1 s k hk
    exact ⟨t, hx, hreg, hout, hcontrol⟩

/-- A running core at a `GETC` or an `IN` with a key in the mailbox completes the service in one step. -/
theorem step_of_key (hr : s.status = .running) (hw : s.walk = none) (hp : s.pc ≠ Config.kbsr)
    (hop : op4 (s.cell s.pc) = 0xF) (hv : lowByte (s.cell s.pc) = 0x20 ∨ lowByte (s.cell s.pc) = 0x23)
    (hk : s.kbdSlot = some k) : ∃ u, step s = .next u ∧ u.pc = s.pc + 1 ∧ (u.reg 0).toNat = k.toNat ∧
      u.out = (if lowByte (s.cell s.pc) = 0x23 then s.out ++ [k] else s.out) ∧ u.cc = s.cc ∧ u.status = .running := by
  obtain ⟨t, hx, hreg, hout, hpc, hcc, hstatus⟩ := exec_trap_of_key (s := s.setPc (s.pc + 1)) hv hk
  refine ⟨_, step_trapWord hr hw hp hop hx, ?_⟩
  rw [State.keyboardMove_pc, State.reg_keyboardMove, State.keyboardMove_out, State.keyboardMove_cc,
    State.keyboardMove_status]
  exact ⟨hpc, hreg, hout, hcc, hstatus.trans hr⟩

/-- Settles O39: the waiting step changes nothing but the mailbox, which the producer's move fills; so the next step
meets the same word with the key. -/
theorem keyLiftsTheHold : Obligations.KeyLiftsTheHold := by
  intro s k hhold harrival
  obtain ⟨hr, hw, hp, hop, hv, hk⟩ := hhold
  have hslot : s.producerMove.kbdSlot = some k := by
    rw [State.producerMove_kbdSlot, hk, slotAfter_empty, harrival]
  obtain ⟨u, hu⟩ := step_of_key (s := s.producerMove) hr hw hp hop hv hslot
  exact ⟨s.producerMove, u, holdChangesNothing s ⟨hr, hw, hp, hop, hv, hk⟩, rfl, hslot, hu⟩

end Sys2Proof.Machine

/-! ### `PUTS` and `PUTSP` as their loops (rules R198, R202) -/

namespace Sys2Proof.Machine

open Sys2Proof.Claims

variable {s t : State} {a : Word} {n : Nat}

/-- Settles O29: a loop that ends within one turn round memory is the first turn of the service. -/
theorem putsIsItsLoop : Obligations.PutsIsItsLoop :=
  ⟨fun _ hop hv => decode_trapWord hop hv, fun _ _ n hn hrun =>
    congrArg Host.Outcome.next (State.stringService_of_ends (State.putsTurn_ended_iff.mpr ⟨n, hn, hrun⟩))⟩

/-- The loop of rule R198 over a zero-terminated string away from the keyboard status cell: one read for each word
and one for the terminator, and the low bytes sent. -/
theorem putsRun_of_string {ws : List Word}
    (hws : ∀ k (h : k < ws.length), s.cell (a + BitVec.ofNat 16 k) = ws[k] ∧ ws[k] ≠ 0)
    (hz : s.cell (a + BitVec.ofNat 16 ws.length) = 0)
    (hne : ∀ k, k ≤ ws.length → a + BitVec.ofNat 16 k ≠ Config.kbsr) :
    PutsRun (ws.length + 1) s a { s with out := s.out ++ ws.map lowByte } := by
  have hread : s.memRead a = (s.cell a, s) := State.memRead_of_ne (by simpa using hne 0 (Nat.zero_le _))
  induction ws generalizing s a with
  | nil =>
    have hstop := PutsRun.stop s a (by simpa [hread] using hz)
    simpa [hread] using hstop
  | cons w ws ih =>
    obtain ⟨hw, hw0⟩ : s.cell a = w ∧ w ≠ 0 := by simpa using hws 0 (Nat.succ_pos _)
    have hrest : PutsRun (ws.length + 1) (s.outChar (lowByte w)) (a + 1)
        { s with out := s.out ++ [lowByte w] ++ ws.map lowByte } := by
      have hne' : ∀ k, k ≤ ws.length → a + 1 + BitVec.ofNat 16 k ≠ Config.kbsr := fun k hk =>
        add_one_add a k ▸ hne (k + 1) (Nat.succ_le_succ hk)
      refine ih (s := s.outChar (lowByte w)) (fun k hk => ?_) ?_ hne' (State.memRead_of_ne ?_)
      · rw [add_one_add]
        exact hws (k + 1) (Nat.succ_lt_succ hk)
      · rw [add_one_add]
        exact hz
      · simpa using hne' 0 (Nat.zero_le _)
    refine .send _ s a _ (by rw [hread, hw]; exact hw0) ?_
    rw [hread, hw]
    simpa using hrest

/-- Settles O30: the string is read by one loop within a turn, which is what `PUTS` does. -/
theorem putsSendsTheString : Obligations.PutsSendsTheString :=
  fun s _ hlen hws hz hne => putsIsItsLoop.2 s _ _ hlen (putsRun_of_string hws hz hne)

/-- Where a walk of `PUTSP` ends, it leaves what the loop of rule R202 leaves. -/
theorem putspWalk_of_run {m : Nat} (hrun : PutspRun n s a t) (hend : (stringWalk .putsp m a s).1 = false) :
    stringWalk .putsp m a s = (false, t) := by
  induction hrun generalizing m with
  | stopLow s a hl =>
    cases m with
    | zero => cases hend
    | succ m => exact stringWalk_stop (State.putspCell_stopLow hl) m
  | stopHigh s a hl hh =>
    cases m with
    | zero => cases hend
    | succ m => exact stringWalk_stop (State.putspCell_stopHigh hl hh) m
  | send n s a t hl hh _ ih =>
    cases m with
    | zero => cases hend
    | succ m =>
      rw [stringWalk_go (State.putspCell_send hl hh)] at hend ⊢
      exact ih hend

/-- Settles O31: the first turn of `PUTSP` polls and so ends, and a walk that ends is the loop. -/
theorem putspIsItsLoop : Obligations.PutspIsItsLoop := by
  refine ⟨fun _ hop hv => decode_trapWord hop hv, fun s t n hm hrun => ?_⟩
  have hturn : s.stringTurn ⟨.putsp, s.reg 0⟩ = (false, t) :=
    putspWalk_of_run hrun (putspWalk_ends hm (turn_meets _ _))
  exact congrArg Host.Outcome.next (State.stringService_of_ends hturn)

end Sys2Proof.Machine

/-! ### The `PUTS` that never ends (rules R191, R198, R210) -/

namespace Sys2Proof.Machine

open Sys2Proof.Claims

variable {s t : State} {a : Word} {w : Walk}

/-- Where a nonzero key waits, no other key does. -/
theorem NonzeroKeyWaits.ne_zero (h : NonzeroKeyWaits s) {k : Byte} (hk : s.kbdSlot = some k) : k ≠ 0 := by
  obtain ⟨k', hk', hne⟩ := h
  cases hk'.symm.trans hk
  exact hne

/-- A service not done in its step did not end in its first turn. -/
theorem State.stringTurn_goesOn_of_service (h : (s.serviceTurns w).1 = true) : (s.stringTurn w).1 = true := by
  by_contra hend
  have he := State.serviceTurns_of_ended (Prod.ext (Bool.eq_false_of_not_eq_true hend) rfl)
  rw [he] at h
  cases h

/-- A turn takes no character back. -/
theorem State.out_stringTurn_le (s : State) (w : Walk) : s.out.length ≤ (s.stringTurn w).2.out.length := by
  obtain ⟨m, k, o, h⟩ := s.stringTurn_frame w
  rw [h, List.length_append]
  exact Nat.le_add_right _ _

/-- A `PUTS` whose first turn does not end sends at least the characters of that turn. -/
theorem State.out_serviceTurns_of_goesOn (h : (s.stringTurn ⟨.puts, a⟩).1 = true) :
    s.out.length + 65536 ≤ (s.serviceTurns ⟨.puts, a⟩).2.out.length := by
  have hfirst : (s.stringTurn ⟨.puts, a⟩).2.out.length = s.out.length + 65536 := out_putsWalk h
  obtain ⟨ks, ms, d, e⟩ := State.arrivalTurns_of_service (s := (s.stringTurn ⟨.puts, a⟩).2) (w := ⟨.puts, a⟩)
  rw [State.serviceTurns, goOn_of_goesOn h, e]
  exact moreTurns_ind (P := fun t => s.out.length + 65536 ≤ t.out.length) (move := fun k t => t.arrive k)
    (fun _ _ ht => ht) (fun t ht => ht.trans (t.out_stringTurn_le _)) ks hfirst.ge

/-- After a turn of a `PUTS` without a terminator the producer's move leaves the state of one that never ends: it
puts a nonzero key into the mailbox that the turn has emptied. -/
theorem endless_keyboardMove (hr : s.status = .running) (hw : s.walk = some ⟨.puts, a⟩) (hn : NoTerminator s)
    (hk : s.kbdSlot = none) : Endless s.keyboardMove a := by
  rw [State.keyboardMove_of_some hw]
  exact ⟨hr, hw, hn, State.endlessMove_waits hk⟩

/-- A `PUTS` leaves registers, `pc`, `CC` and `STATE` as they were. -/
theorem State.servicePuts_same (s : State) : SameRegs s s.servicePuts ∧ SameControl s s.servicePuts :=
  ⟨fun r => congrArg (·[r.toNat]'r.isLt) (State.stringService_regs _),
    State.stringService_pc _, State.stringService_cc _, State.stringService_status _⟩

/-- A `PUTS` is done in its one step, or it is one that never ends (rules R191, R210). -/
theorem State.servicePuts_done_or_endless (hm : Memory.wf s.mem) (hw : s.walk = none) (hr : s.status = .running) :
    s.servicePuts.walk = none ∨ s.out.length + 65536 ≤ s.servicePuts.out.length ∧
      Endless s.servicePuts.keyboardMove (s.reg 0) := by
  rcases hgo : (s.serviceTurns ⟨.puts, s.reg 0⟩).1 with _ | _
  · have e : s.servicePuts = (s.serviceTurns ⟨.puts, s.reg 0⟩).2 := leaveService_of_ended hgo
    rw [e]
    exact .inl ((State.serviceTurns_walk _).trans hw)
  · have e : s.servicePuts = (s.serviceTurns ⟨.puts, s.reg 0⟩).2.setWalk (some ⟨.puts, s.reg 0⟩) :=
      leaveService_of_goesOn hgo
    obtain ⟨hn, hk⟩ := State.serviceTurns_endless hm hgo
    have hr' : s.servicePuts.status = .running := (State.stringService_status _).trans hr
    rw [e] at hr' ⊢
    exact .inr ⟨State.out_serviceTurns_of_goesOn (State.stringTurn_goesOn_of_service hgo),
      endless_keyboardMove hr' rfl hn hk⟩

/-- A step of a `PUTS` that never ends is one turn, which does not end, and the producer's move. -/
theorem step_of_endless (h : Endless s a) :
    step s = .next (((s.setWalk none).stringTurn ⟨.puts, a⟩).2.setWalk (some ⟨.puts, a⟩)).keyboardMove ∧
      ((s.setWalk none).stringTurn ⟨.puts, a⟩).1 = true := by
  obtain ⟨hr, hw, hn, hk⟩ := h
  have hgo : ((s.setWalk none).stringTurn ⟨.puts, a⟩).1 = true := State.stringTurn_goesOn (s := s.setWalk none) hn hk a
  rw [step_of_running hr (coreStep_of_walk hw), State.resumeWalk, leaveService_of_goesOn hgo]
  exact ⟨rfl, hgo⟩

/-- A `PUTS` that never ends goes on: each step sends the characters of a whole turn (rule R210). -/
theorem endless_goesOn (h : Endless s a) : ∃ t, step s = .next t ∧ Endless t a ∧ SameRegs s t ∧ SameControl s t ∧
    t.out.length = s.out.length + 65536 := by
  obtain ⟨hstep, hgo⟩ := step_of_endless h
  obtain ⟨hr, hw, hn, hk⟩ := h
  obtain ⟨hn', hk'⟩ := noTerminator_of_turn (s := s.setWalk none) hn.1 (fun _ => hk.ne_zero) hgo
  refine ⟨_, hstep, endless_keyboardMove (by simpa using hr) rfl hn' hk', fun r => ?_, ?_, ?_⟩
  · simp [State.reg]
  · exact ⟨by simp, by simp, by simp⟩
  · rw [State.keyboardMove_out]
    exact out_putsWalk hgo

/-- Where no moves are given and the first turn does not end, the turns with free moves follow at once. -/
theorem State.serviceTurns_of_no_moves (hgo : (s.stringTurn w).1 = true) (hks : s.keys = []) :
    s.serviceTurns w = (s.stringTurn w).2.freeTurns w := by
  have hgiven : (s.stringTurn w).2.givenTurns w = (true, (s.stringTurn w).2) := by
    rw [State.givenTurns, State.stringTurn_keys, hks]
    rfl
  rw [State.serviceTurns, goOn_of_goesOn hgo, hgiven]
  rfl

/-- After a turn without a terminator the free value says whether the service ends (log entry 3). -/
theorem State.freeTurns_ended_iff (hn : NoTerminator s) (hk : s.kbdSlot = none) :
    (s.freeTurns ⟨.puts, a⟩).1 = false ↔ Config.keysInService s.draws ≠ none := by
  rw [State.freeTurns]
  split
  · next ks hks => simpa [hks] using moreTurns_ends (s := s.nextDraw) ks ⟨hn.1, hk⟩
  · next hks => simpa [hks] using State.stringTurn_goesOn (s := s.endlessMove) hn (State.endlessMove_waits hk) a

/-- A service is left in progress where its turns have not ended. -/
theorem State.stringService_walk_iff (hw : s.walk = none) :
    (s.stringService w).walk = none ↔ (s.serviceTurns w).1 = false := by
  rw [State.stringService]
  rcases h : (s.serviceTurns w).1 with _ | _
  · simpa [leaveService_of_ended h, State.serviceTurns_walk] using hw
  · simp [leaveService_of_goesOn h]

/-- What is sent does not depend on whether the service is done. -/
theorem leaveService_out (w : Walk) (r : Bool × State) : (leaveService w r).out = r.2.out := by
  rw [leaveService]
  split <;> rfl

/-- A `PUTS` that memory and mailbox can keep going and whose moves are all free (log entry 3). -/
theorem State.servicePuts_of_no_moves (hn : NoTerminator s) (hk : NonzeroKeyWaits s) (hw : s.walk = none)
    (hks : s.keys = []) : s.out.length + 65536 ≤ s.servicePuts.out.length ∧
      (s.servicePuts.walk = none ↔ Config.keysInService s.draws ≠ none) := by
  have hgo : (s.stringTurn ⟨.puts, s.reg 0⟩).1 = true := State.stringTurn_goesOn hn hk _
  obtain ⟨hn', hk'⟩ := noTerminator_of_turn hn.1 (fun _ => hk.ne_zero) hgo
  constructor
  · rw [State.servicePuts, State.stringService, leaveService_out]
    exact State.out_serviceTurns_of_goesOn hgo
  · rw [State.servicePuts, State.stringService_walk_iff hw, State.serviceTurns_of_no_moves hgo hks,
      State.freeTurns_ended_iff hn' hk', State.stringTurn_draws]

/-- A service in progress whose loop ends within a turn is done in that step. -/
theorem step_of_resumed_end (hr : s.status = .running) (hw : s.walk = some w)
    (hend : (s.setWalk none).stringTurn w = (false, t)) : step s = .next t.producerMove := by
  have ht : t = ((s.setWalk none).stringTurn w).2 := congrArg Prod.snd hend.symm
  have hdone : t.walk = none := ht ▸ State.stringTurn_walk w
  rw [step_of_running hr (coreStep_of_walk hw), State.resumeWalk, hend, leaveService_of_ended rfl,
    State.keyboardMove_of_none hdone]

/-- Settles O34: a `PUTS` not done in its step has met no terminator in a whole turn, and the producer's move after
such a turn makes the next turn meet none. -/
theorem putsWithoutTerminatorGoesOn : Obligations.PutsWithoutTerminatorGoesOn := by
  refine ⟨fun s hm hw hr => ?_, fun s a h => endless_goesOn h, fun s hn hk hw hks => ?_,
    fun s t a n hr hw hn hrun => ?_⟩
  · obtain ⟨hregs, hcontrol⟩ := s.servicePuts_same
    exact ⟨s.servicePuts, rfl, hregs, hcontrol, State.servicePuts_done_or_endless hm hw hr⟩
  · exact ⟨s.servicePuts, rfl, State.servicePuts_of_no_moves hn hk hw hks⟩
  · exact step_of_resumed_end hr hw (State.putsTurn_ended_iff.mpr ⟨n, hn, hrun⟩)

end Sys2Proof.Machine

/-!
PROOFS. The reserved family: what taking the fatal error leaves of the state, and the statements about `RTI` and
`RES`.
-/

/-! ### `RTI` and `RES` (rules R220, R222, R231) -/

namespace Sys2Proof.Machine

open Sys2Proof.Claims

/-- The fatal error puts its record into `STATE`, and changes nothing else (rule R231). -/
theorem State.raiseUnimplemented_onlyFaulted (s : State) (op : BitVec 4) (ir : Word) :
    OnlyFaulted s (s.raiseUnimplemented op ir) op ir :=
  ⟨rfl, fun _ => rfl, rfl, rfl, fun _ => rfl, ⟨rfl, rfl, rfl⟩, ⟨rfl, rfl, rfl⟩⟩

/-- Settles O40: the row of the opcode, and the fault with the whole word in its record. -/
theorem rtiFaults : Obligations.RtiFaults := by
  intro s ir hop
  have hrow : decode ir = .rti (ir.extractLsb' 0 12) := decode_of_op4_rti hop
  exact ⟨hrow, s.raiseUnimplemented 0b1000 ir, hrow ▸ exec_decode_reserved (.inl rfl) hop,
    s.raiseUnimplemented_onlyFaulted _ ir⟩

/-- Settles O41: the row of the opcode, and the fault with the whole word in its record. -/
theorem resFaults : Obligations.ResFaults := by
  intro s ir hop
  have hrow : decode ir = .res (ir.extractLsb' 0 12) := decode_of_op4_res hop
  exact ⟨hrow, s.raiseUnimplemented 0b1101 ir, hrow ▸ exec_decode_reserved (.inr rfl) hop,
    s.raiseUnimplemented_onlyFaulted _ ir⟩

end Sys2Proof.Machine

/-!
PROOFS. The exceptions family: no instruction and no step ends in a fault or a refusal of the model.
-/

/-! ### Totality of the instructions and of the step (rules R230, R233) -/

namespace Sys2Proof.Machine

/-- Every instruction answers a next state: only the meaning of `TRAP` branches, on the vector, and `RTI` and `RES`
answer the state with the fault's record in `STATE` (log entry 11). -/
theorem exec_next (i : Instr) (s : State) : ∃ t, exec i s = .next t := by
  cases i with
  | trap v => exact exec_trap_next v s
  | _ => exact ⟨_, rfl⟩

/-- The core's step answers a next state, whether it resumes a string service or fetches. -/
theorem coreStep_next (s : State) : ∃ t, coreStep s = .next t := by
  cases hw : s.walk with
  | some w => exact ⟨s.resumeWalk w, coreStep_of_walk hw⟩
  | none => exact coreStep_of_fetch hw ▸ exec_next (decode s.fetch.1) s.fetch.2

/-- Every step answers a next state: a stopped core's step the state itself (rule R267). -/
theorem step_next (s : State) : ∃ t, step s = .next t := by
  by_cases hr : s.status = .running
  · obtain ⟨t, ht⟩ := coreStep_next s
    exact ⟨t.keyboardMove, step_of_running hr ht⟩
  · exact ⟨s, step_of_stopped hr⟩

/-- Settles O49: `exec` and `step` are total in next states. -/
theorem nothingStopsTheModel : Obligations.NothingStopsTheModel := ⟨exec_next, step_next⟩

end Sys2Proof.Machine

/-!
PROOFS. The reset and hazards family: a stopped core's run, and the step as fetch, decode and execution.
-/

/-! ### A stopped core (rule R267), and the step of a running one (rule R266) -/

namespace Sys2Proof.Machine

variable {s u : State} {ir : Word}

/-- A run stays in a state that the step answers with itself, whatever the machine. -/
theorem coreRun_of_fixed (M : Host.Core) {x : M.State} (h : M.step x = .next x) (n : Nat) : M.run n x = .next x := by
  induction n with
  | zero => rfl
  | succ n ih => rw [Host.Core.run, h]; exact ih

/-- Settles O42: the step of a stopped core answers the same state, so a run of any length does. -/
theorem stoppedCoreIsFrozen : Obligations.StoppedCoreIsFrozen := fun _ n hs =>
  have hstep := step_of_stopped hs
  ⟨hstep, coreRun_of_fixed Sys2Proof.core hstep n⟩

/-- The fetch is the read at `pc`, and then the advance of the counter. -/
theorem State.fetch_of_memRead (h : s.memRead s.pc = (ir, u)) : s.fetch = (ir, u.setPc (s.pc + 1)) := by
  rw [State.fetch_eq, h]

/-- Settles O51: the pair that the fetch answers is the pair of the hypothesis, and every decoded word is
well-formed. -/
theorem stepRunsTheDecodedInstruction : Obligations.StepRunsTheDecodedInstruction := by
  intro s t ir u hr hw hm hx
  have hfetch := State.fetch_of_memRead hm
  exact ⟨decode_wellFormed ir, step_of_exec hr hw (by rw [hfetch]; exact hx)⟩

end Sys2Proof.Machine
